-- ==== Sys2Proof/Word.lean ====
section
/-! DEFINITION. The machine's words: the byte, the 32-bit word, and the operand descriptor as syntax. -/

namespace Sys2Proof

/-- A byte is 8 bits (00 R6). -/
abbrev Byte := BitVec 8

/-- A word is 32 bits (00 R6); every operand value, address and register slot is one. -/
abbrev Word := BitVec 32

/-- An operand descriptor (30 R62, R63). The first five forms are the spec's five kinds. The last three
carry what the bytes spell when they spell no kind: evaluating one raises the fault the spec gives it
(40 R86), in its place among the instruction's other faults (60 R170). DEDUCED, safe: log entry 8. -/
inductive Operand where
  /-- IMM8, tag 0x01: an 8-bit constant, zero-extended (30 R64). -/
  | imm8 (value : Byte)
  /-- IMM32, tag 0x02: a 32-bit constant. -/
  | imm32 (value : Word)
  /-- REG, tag 0x03: register slot `slot`; a number of 8 or more is reserved (30 R68). -/
  | reg (slot : Byte)
  /-- MEM, tag 0x04: the word of Memory at `addr`. -/
  | mem (addr : Word)
  /-- STK, tag 0x05: the word at sp + 4 * `index`; index 0 is the top of the stack (30 R64). -/
  | stk (index : Byte)
  /-- A reserved tag, 0x00 or 0x06 to 0xFF (30 R68). -/
  | reserved (tag : Byte)
  /-- The tag byte itself lies past the last readable byte. -/
  | noTag
  /-- The tag is one of the five, and its payload runs past the last readable byte. -/
  | noPayload
  deriving DecidableEq, Repr

end Sys2Proof
end

