-- ==== Sys2Proof/Syntax.lean ====
section
/-! DEFINITION. The instruction set: one constructor per row of spec/opcode_table.json (30 R66). Operand `a`
is the first operand, the only possible destination; `b` is the second (30 R60). -/

namespace Sys2Proof

/-- The 24 instructions (00 R2, 30 R66). `inp` is the table's `in`, which is a word of Lean's own. -/
inductive Instr where
  | add (a b : Operand)
  | sub (a b : Operand)
  | div (a b : Operand)
  | mul (a b : Operand)
  | mod (a b : Operand)
  | and (a b : Operand)
  | or (a b : Operand)
  | xor (a b : Operand)
  | not (a : Operand)
  | cmp (a b : Operand)
  | jmp (a : Operand)
  | je (a : Operand)
  | jne (a : Operand)
  | jlt (a : Operand)
  | jgt (a : Operand)
  | ldr (a b : Operand)
  | str (a b : Operand)
  | cons (a b : Operand)
  | car (a : Operand)
  | cdr (a : Operand)
  | push (a : Operand)
  | pop (a : Operand)
  | inp (a b : Operand)
  | out (a b : Operand)
  deriving DecidableEq, Repr

/-- Operand A, the descriptor that follows the opcode byte. -/
def Instr.operandA : Instr → Operand
  | .add a _ | .sub a _ | .div a _ | .mul a _ | .mod a _ | .and a _ | .or a _ | .xor a _ => a
  | .not a | .jmp a | .je a | .jne a | .jlt a | .jgt a | .car a | .cdr a | .push a | .pop a => a
  | .cmp a _ | .ldr a _ | .str a _ | .cons a _ | .inp a _ | .out a _ => a

/-- Operand B, for the instructions of format F2 (30 R60); format F1 has none. -/
def Instr.operandB? : Instr → Option Operand
  | .add _ b | .sub _ b | .div _ b | .mul _ b | .mod _ b | .and _ b | .or _ b | .xor _ b => some b
  | .cmp _ b | .ldr _ b | .str _ b | .cons _ b | .inp _ b | .out _ b => some b
  | .not _ | .jmp _ | .je _ | .jne _ | .jlt _ | .jgt _ | .car _ | .cdr _ | .push _ | .pop _ => none

end Sys2Proof
end

