-- ==== Sys2Proof/WellFormed.lean ====
section
/-! DEFINITION. Which syntax has an encoding: the spec's five operand kinds with a register number below 8
(30 R63, R68). -/

namespace Sys2Proof

/-- The operand is one of the five kinds, and a REG number names one of the eight slots (30 R63, R68). -/
def Operand.wf : Operand → Bool
  | .imm8 _ | .imm32 _ | .mem _ | .stk _ => true
  | .reg r => decide (r.toNat < 8)
  | .reserved _ | .noTag | .noPayload => false

/-- Every operand of the instruction is well formed; any kind may stand in either place (40 R93). -/
def Instr.wf (i : Instr) : Bool :=
  i.operandA.wf && (i.operandB?.map Operand.wf).getD true

end Sys2Proof
end

