-- ==== Sys2Proof/Decode.lean ====
section
/-! DEFINITION. Decoding and encoding (30 R60 to R68). The opcode map is `opcodeByte`, the descriptor tags are
`tagImm8` to `tagStk`: the two tables an audit against the repository would replace (00 R5). -/

namespace Sys2Proof

/-! ## Byte order -/

/-- Four bytes, the one at the lowest address first, as a little-endian word (20 R30, R31). -/
def wordOf (b0 b1 b2 b3 : Byte) : Word := b3 ++ b2 ++ b1 ++ b0

/-- Byte `i` of a word: bits 8i+7 to 8i (20 R30). -/
def byteOf (v : Word) (i : Nat) : Byte := v.extractLsb' (8 * i) 8

/-- The four bytes of a word in address order (20 R30). -/
def bytesOf (v : Word) : List Byte := [byteOf v 0, byteOf v 1, byteOf v 2, byteOf v 3]

/-! ## The two tables -/

/-- The tag of IMM8 (30 R63). -/
def tagImm8 : Byte := 0x01
/-- The tag of IMM32 (30 R63). -/
def tagImm32 : Byte := 0x02
/-- The tag of REG (30 R63). -/
def tagReg : Byte := 0x03
/-- The tag of MEM (30 R63). -/
def tagMem : Byte := 0x04
/-- The tag of STK (30 R63). -/
def tagStk : Byte := 0x05

/-- The opcode map (30 R66). -/
def opcodeByte : Instr → Byte
  | .add _ _ => 0x01
  | .sub _ _ => 0x02
  | .div _ _ => 0x03
  | .mul _ _ => 0x04
  | .mod _ _ => 0x05
  | .and _ _ => 0x06
  | .or _ _ => 0x07
  | .xor _ _ => 0x08
  | .not _ => 0x09
  | .cmp _ _ => 0x0A
  | .jmp _ => 0x0B
  | .je _ => 0x0C
  | .jne _ => 0x0D
  | .jlt _ => 0x0E
  | .jgt _ => 0x0F
  | .ldr _ _ => 0x10
  | .str _ _ => 0x11
  | .cons _ _ => 0x12
  | .car _ => 0x13
  | .cdr _ => 0x14
  | .push _ => 0x15
  | .pop _ => 0x16
  | .inp _ _ => 0x17
  | .out _ _ => 0x18

/-- The shapes of the 24 instructions, each from operands A and B; format F1 leaves B out (30 R60, R66). -/
def shapes : List (Operand → Operand → Instr) :=
  [.add, .sub, .div, .mul, .mod, .and, .or, .xor, fun a _ => .not a, .cmp,
   fun a _ => .jmp a, fun a _ => .je a, fun a _ => .jne a, fun a _ => .jlt a, fun a _ => .jgt a,
   .ldr, .str, .cons, fun a _ => .car a, fun a _ => .cdr a,
   fun a _ => .push a, fun a _ => .pop a, .inp, .out]

/-- The shape the opcode byte selects, if any: all eight bits are the opcode and nothing else selects the
instruction (30 R61, R66, R67). -/
def shapeOf (opcode : Byte) : Option (Operand → Operand → Instr) :=
  shapes.find? fun f => opcodeByte (f .noTag .noTag) == opcode

/-! ## The decoder -/

/-- Why bytes decode to no instruction. -/
inductive Reject where
  /-- There is no opcode byte to read. -/
  | noOpcode
  /-- The opcode byte is 0x00 or 0x19 to 0xFF (30 R67). -/
  | unknownOpcode (opcode : Byte)
  deriving DecidableEq, Repr

/-- The little-endian word at `p`, where all four bytes can be read. -/
def wordAt? (rd : Nat → Option Byte) (p : Nat) : Option Word :=
  match rd p, rd (p + 1), rd (p + 2), rd (p + 3) with
  | some b0, some b1, some b2, some b3 => some (wordOf b0 b1 b2 b3)
  | _, _, _, _ => none

/-- The descriptor whose tag byte is at `p`, read through `rd` (30 R63; 40 R86: the tag, then the payload). -/
def decodeOperand (rd : Nat → Option Byte) (p : Nat) : Operand :=
  match rd p with
  | none => .noTag
  | some tag =>
    if tag = tagImm8 then ((rd (p + 1)).map Operand.imm8).getD .noPayload
    else if tag = tagImm32 then ((wordAt? rd (p + 1)).map Operand.imm32).getD .noPayload
    else if tag = tagReg then ((rd (p + 1)).map Operand.reg).getD .noPayload
    else if tag = tagMem then ((wordAt? rd (p + 1)).map Operand.mem).getD .noPayload
    else if tag = tagStk then ((rd (p + 1)).map Operand.stk).getD .noPayload
    else .reserved tag

/-- The length of a descriptor in bytes (30 R63). A form that is no descriptor has no length in the spec, and
the number here is never used: its fault ends the instruction first (40 R92). -/
def Operand.size : Operand → Nat
  | .imm8 _ | .reg _ | .stk _ => 2
  | .imm32 _ | .mem _ => 5
  | .reserved _ | .noTag | .noPayload => 1

/-- The instruction whose opcode byte is at `p` (30 R65): operand A at `p + 1`, operand B after A. -/
def decodeAt (rd : Nat → Option Byte) (p : Nat) : Except Reject Instr :=
  match rd p with
  | none => .error .noOpcode
  | some opcode =>
    match shapeOf opcode with
    | none => .error (.unknownOpcode opcode)
    | some shape =>
      .ok (shape (decodeOperand rd (p + 1))
        (decodeOperand rd (p + 1 + (decodeOperand rd (p + 1)).size)))

/-- The instruction a sequence of bytes begins with. -/
def decode (bytes : List Byte) : Except Reject Instr := decodeAt (fun k => bytes[k]?) 0

/-! ## The encoder -/

/-- The bytes of a descriptor (30 R63). A form without an encoding gives what bytes it stands for, if any. -/
def encodeOperand : Operand → List Byte
  | .imm8 v => [tagImm8, v]
  | .imm32 v => tagImm32 :: bytesOf v
  | .reg r => [tagReg, r]
  | .mem addr => tagMem :: bytesOf addr
  | .stk k => [tagStk, k]
  | .reserved tag => [tag]
  | .noTag | .noPayload => []

/-- The bytes of an instruction: the opcode byte, then the descriptors with no padding (30 R60). -/
def encode (i : Instr) : List Byte :=
  opcodeByte i :: (encodeOperand i.operandA ++ (i.operandB?.map encodeOperand).getD [])

/-- The length of an instruction in bytes (30 R65). -/
def Instr.size (i : Instr) : Nat := 1 + i.operandA.size + (i.operandB?.map Operand.size).getD 0

/-! ## The opcode table's words -/

/-- The longest instruction, in bytes (30 R60). -/
def maxSize : Nat := 11

/-- An instruction's bytes from its bits numbered as spec/opcode_table.json numbers them; the bits from `nbits`
up are 0. -/
def tableBytes (nbits w : Nat) : List Byte :=
  (List.range maxSize).map fun k => if 8 * k < nbits then BitVec.ofNat 8 (w >>> (8 * k)) else 0

/-- What the decoder reads from a word of the opcode table. -/
def decodeTableWord (nbits w : Nat) : Option Instr := (decode (tableBytes nbits w)).toOption

end Sys2Proof
end

