-- ==== Sys2Proof/Config.lean ====
section
/-! DEFINITION. What an implementation fixes (00 R5), and the free values: the values the spec leaves open
after which the engine goes on. Each free value is a constant without a body. -/

namespace Sys2Proof

/-- ROM_BASE, the address of the first byte of the ROM image and the reset value of pc (00 R5). -/
abbrev romBase : Word := 0x1000

/-- NREG, the number of register slots (00 R5, 10 R14). -/
abbrev nreg : Nat := 8

/-- CELL_SIZE, the bytes of one heap cell (00 R5, 44 R144). -/
abbrev cellSize : Nat := 8

/-- One range of device addresses, both ends included (20 R41: routing is "based on address range"). -/
structure DevRange where
  first : Word
  last : Word
  deriving DecidableEq, Repr

/-- The open parameters of the engine (00 R5): the capacity of Memory and the set DEV of device addresses,
given as a union of ranges. They never change while the engine runs. DESIGN CHOICE, safe: log entry 1. -/
structure Config where
  memSize : Word
  dev : List DevRange
  deriving DecidableEq, Repr

/-- `a` is in DEV (20 R42, R45). -/
def Config.isDevice (c : Config) (a : Word) : Bool :=
  c.dev.any fun r => decide (r.first ≤ a) && decide (a ≤ r.last)

/-- The bounds of 00 R5 and 20 R45: 0x1000 <= MEMORY_SIZE, and every device address lies above Memory. -/
abbrev Config.valid (c : Config) : Prop :=
  romBase ≤ c.memSize ∧ ∀ r ∈ c.dev, c.memSize ≤ r.first

/-- What the `n`-th draw gives if it is a read of device address `addr` (20 R44: a value the engine does not
constrain). A free value: log entry 6. -/
opaque Config.deviceAnswer (n : Nat) (addr : Word) : Word

/-- What the `n`-th draw gives if it is a read of port `port` (20 R47). A free value: log entry 6. -/
opaque Config.portAnswer (n : Nat) (port : Word) : Word

/-- What the `n`-th draw gives if it is the pc left by a fault (60 R171: unspecified). A free value: log
entry 5. -/
opaque Config.pcAfterFault (n : Nat) : Word

end Sys2Proof
end

