-- ==== Sys2Proof/Machine/State.lean ====
section
/-! DEFINITION. The state of the engine (10 R10), the ways a step can stop, and reset (10 R24, 70 R190). -/

namespace Sys2Proof.Machine

open Sys2Proof

/-- What a byte of Memory that nothing has listed reads as. DESIGN CHOICE, unsafe: log entry 3. -/
def unlistedByte : Byte := 0

/-- The Memory region as (address, byte) pairs, addresses rising, unlisted bytes left out (10 R21). -/
abbrev Memory := List Host.Cell

/-- The canonical form of Memory: addresses strictly rising and no entry equal to the unlisted byte. -/
abbrev Memory.wf (m : Memory) : Prop :=
  m.Pairwise (fun c d => c.1 < d.1) ∧ ∀ c ∈ m, c.2 ≠ unlistedByte

/-- The seven fault kinds (60 R161). -/
inductive FaultKind where
  | unknownOpcode
  | invalidOperand
  | outOfBounds
  | divisionByZero
  | stackOverflow
  | stackUnderflow
  | heapExhausted
  deriving DecidableEq, Repr

/-- What a `raise K(info)` carries (60 R160, R161). -/
structure Raise where
  kind : FaultKind
  info : Word
  deriving DecidableEq, Repr

/-- The run state (10 R20): RUNNING, HALTED(Success), HALTED(Fault(kind, at, info)). -/
inductive Run where
  | running
  | success
  | fault (kind : FaultKind) (opAt info : Word)
  deriving DecidableEq, Repr

/-- One transaction on an outward channel (10 R23). -/
inductive Event where
  | ioWrite (port value : Word)
  | ioRead (port value : Word)
  | devRead (addr value : Word)
  deriving DecidableEq, Repr

/-- The whole state of the engine (10 R10), with two fields of the model's own: `cfg`, the parameters, constant
(log entry 1), and `draws`, the number of free values drawn so far (log entry 6). -/
structure State where
  cfg : Config
  pc : Word
  sp : Word
  eqFlag : Bool
  ltFlag : Bool
  x : Vector Word 8
  hp : Word
  mem : Memory
  romSize : Word
  run : Run
  /-- Oldest first (10 R23). -/
  trace : List Event
  draws : Nat
  deriving DecidableEq, Repr

/-- Stops of the model. The engine's own faults (60 R161) are NOT here: they are states with `run` a fault. -/
inductive Fault where
  /-- Raised by `step` when the run test passes and pc lies outside Memory. 40 R81 says this cannot be; it takes a
  launch that broke 00 R5 (93 U19). Safe: the model stops and nothing follows. Log entry 9. -/
  | opcodeOutsideMemory (pc : Word)
  deriving DecidableEq, Repr

/-- Refusals of the model. -/
inductive Refusal where
  /-- The instruction has no meaning yet; answered by an arm of `exec` only. Safe. No arm answers it now. -/
  | notModelled (mnemonic : String)
  deriving DecidableEq, Repr

/-- The answer of a step or of an instruction. -/
abbrev Answer := Host.Outcome State Fault Refusal

/-- What the host hands over at reset (70 R190, R192): the parameters, the arbitrary content of the slots
(10 R15) and of Memory with the image in place (10 R21), and the image's length. -/
structure Launch where
  cfg : Config
  x : Vector Word 8
  mem : Memory
  romSize : Word
  deriving DecidableEq, Repr

/-- Reset (10 R24, 70 R190, R191): applied at any time, it gives exactly this state. -/
def State.resetFrom (l : Launch) : State where
  cfg := l.cfg
  pc := romBase
  sp := l.cfg.memSize
  eqFlag := false
  ltFlag := false
  x := l.x
  hp := romBase + l.romSize
  mem := l.mem
  romSize := l.romSize
  run := .running
  trace := []
  draws := 0

/-- The launch `State.reset` stands for: MEMORY_SIZE 0x10000 and no device (log entry 1), slots 0 (log entry 2),
Memory with nothing listed (log entry 3), no image loaded (log entry 4). DESIGN CHOICE, unsafe. -/
def Launch.empty : Launch where
  cfg := ⟨0x10000, []⟩
  x := Vector.replicate 8 0
  mem := []
  romSize := 0

/-- The machine right after reset (10 R24), with no program loaded. -/
def State.reset : State := State.resetFrom Launch.empty

end Sys2Proof.Machine
end

