-- ==== Sys2Proof/Machine/Ops.lean ====
section
/-! DEFINITION. The named operations over Memory, registers, the bus, the port channel, the allocator and the
stack (20, 44, 45), the raising of a fault (60 R160), and what the host does before a run (70 R192). -/

namespace Sys2Proof.Machine

open Sys2Proof

/-! ## Memory: the bytes -/

/-- The byte at an address. -/
def Memory.get : Memory → Nat → Byte
  | [], _ => unlistedByte
  | (k, b) :: m, a => if k = a then b else Memory.get m a

/-- Memory with an address unlisted. -/
def Memory.remove (m : Memory) (a : Nat) : Memory := m.filter fun c => c.1 != a

/-- Memory with an address that is not listed put in its place. -/
def Memory.insert : Memory → Nat → Byte → Memory
  | [], a, v => [(a, v)]
  | (k, b) :: m, a, v => if a < k then (a, v) :: (k, b) :: m else (k, b) :: Memory.insert m a v

/-- Memory with the byte at an address written, in canonical form again. -/
def Memory.put (m : Memory) (a : Nat) (v : Byte) : Memory :=
  if v = unlistedByte then m.remove a else (m.remove a).insert a v

/-- Memory with consecutive bytes written, the first at `a`. -/
def Memory.putBytes (m : Memory) (a : Nat) : List Byte → Memory
  | [] => m
  | b :: bs => Memory.putBytes (m.put a b) (a + 1) bs

/-- MEMORY_SIZE, one past the last byte of Memory. -/
def State.memTop (s : State) : Nat := s.cfg.memSize.toNat

/-- The byte at `a`, if `a` lies in Memory: the raw path's one-byte read (20 R36). -/
def State.byteAt? (s : State) (a : Nat) : Option Byte :=
  if a < s.memTop then some (s.mem.get a) else none

/-- The little-endian word at `a` (20 R30). -/
def State.wordAt (s : State) (a : Nat) : Word :=
  wordOf (s.mem.get a) (s.mem.get (a + 1)) (s.mem.get (a + 2)) (s.mem.get (a + 3))

/-- The four bytes of `v` stored at `a`, little-endian (20 R30). -/
def State.setWord (s : State) (a : Nat) (v : Word) : State :=
  { s with mem := s.mem.putBytes a (bytesOf v) }

/-- pc set. -/
def State.setPc (s : State) (p : Word) : State := { s with pc := p }

/-! ## Faults -/

/-- The raise of `OutOfBounds` for an access that starts at `a`; the record keeps 32 bits of it (20 R36). -/
def boundsRaise (a : Nat) : Raise := ⟨.outOfBounds, BitVec.ofNat 32 a⟩

/-- The codes of the fault kinds (60 R161). -/
def FaultKind.code : FaultKind → Nat
  | .unknownOpcode => 1
  | .invalidOperand => 2
  | .outOfBounds => 3
  | .divisionByZero => 4
  | .stackOverflow => 5
  | .stackUnderflow => 6
  | .heapExhausted => 7

/-- Taking a fault (60 R160): HALTED with the record, `opAt` the address of the instruction's opcode byte; what
the instruction did before stands (60 R171), and pc is a free value (log entry 5). There is no return from a
fault (60 R173): only a reset leaves HALTED. -/
def State.raiseFault (s : State) (opAt : Word) (e : Raise) : State :=
  { s with
    run := .fault e.kind opAt e.info
    pc := Config.pcAfterFault s.draws
    draws := s.draws + 1 }

/-- The result of an instruction's own operation: a value and the state so far, or a raise and the state so far. -/
inductive OpResult (α : Type) where
  | done (v : α) (s : State)
  | raised (e : Raise) (s : State)

/-! ## The raw buffer path -/

/-- `MemRead(a, 4)` (20 R36). -/
def State.memRead4 (s : State) (a : Nat) : Except Raise Word :=
  if s.memTop < a + 4 then .error (boundsRaise a) else .ok (s.wordAt a)

/-- `MemWrite(a, 4, v)` (20 R37): the bounds come before any byte is written. -/
def State.memWrite4 (s : State) (a : Nat) (v : Word) : Except Raise State :=
  if s.memTop < a + 4 then .error (boundsRaise a) else .ok (s.setWord a v)

/-! ## Register slots -/

/-- Slot `r`, for `r` below NREG (10 R14). -/
def State.getReg (s : State) (r : Nat) : Word := (s.x[r]?).getD 0

/-- Slot `r` written, for `r` below NREG (10 R14). -/
def State.setReg (s : State) (r : Nat) (v : Word) : State := { s with x := s.x.setIfInBounds r v }

/-! ## The bus path and the port channel -/

/-- A read of the outside made and recorded once (20 R35): one more transaction, one more draw (log entry 6). -/
def State.recordRead (s : State) (e : Event) : State :=
  { s with trace := s.trace ++ [e], draws := s.draws + 1 }

/-- `BusRead(a)` (20 R42): a device's answer is a draw, recorded in the trace once (20 R35). -/
def State.busRead (s : State) (a : Word) : OpResult Word :=
  if s.cfg.isDevice a then
    .done (Config.deviceAnswer s.draws a) (s.recordRead (.devRead a (Config.deviceAnswer s.draws a)))
  else if a.toNat + 4 ≤ s.memTop then .done (s.wordAt a.toNat) s
  else .raised ⟨.outOfBounds, a⟩ s

/-- `IoRead(p)` (20 R47): the host's answer is a draw, recorded in the trace once. -/
def State.ioRead (s : State) (p : Word) : OpResult Word :=
  .done (Config.portAnswer s.draws p) (s.recordRead (.ioRead p (Config.portAnswer s.draws p)))

/-- `IoWrite(p, v)` (20 R48). -/
def State.ioWrite (s : State) (p v : Word) : State := { s with trace := s.trace ++ [.ioWrite p v] }

/-! ## The allocator -/

/-- hp moved. -/
def State.moveHp (s : State) (v : Word) : State := { s with hp := v }

/-- `Alloc()` (44 R140). -/
def State.alloc (s : State) : OpResult Word :=
  if s.memTop < s.hp.toNat + cellSize then .raised ⟨.heapExhausted, s.hp⟩ s
  else .done s.hp (s.moveHp (s.hp + BitVec.ofNat 32 cellSize))

/-- The operation of `cons` (44 R141): allocate, write the two fields, give the cell's offset. -/
def State.allocCell (s : State) (car cdr : Word) : OpResult Word :=
  match s.alloc with
  | .raised e s1 => .raised e s1
  | .done o s1 =>
    match s1.memWrite4 o.toNat car with
    | .error e => .raised e s1
    | .ok s2 =>
      match s2.memWrite4 (o.toNat + 4) cdr with
      | .error e => .raised e s2
      | .ok s3 => .done o s3

/-! ## The stack -/

/-- sp moved. -/
def State.moveSp (s : State) (v : Word) : State := { s with sp := v }

/-- The operation of `push` but for pc (45 R150): room, then sp, then the write. -/
def State.pushWord (s : State) (v : Word) : OpResult Unit :=
  if s.sp < 4 then .raised ⟨.stackOverflow, s.sp⟩ s
  else
    match (s.moveSp (s.sp - 4)).memWrite4 (s.sp - 4).toNat v with
    | .error e => .raised e (s.moveSp (s.sp - 4))
    | .ok s1 => .done () s1

/-- The operation of `pop` (45 R151): the word at sp, then sp. -/
def State.popWord (s : State) : OpResult Word :=
  if s.memTop < s.sp.toNat + 4 then .raised ⟨.stackUnderflow, s.sp⟩ s
  else
    match s.memRead4 s.sp.toNat with
    | .error e => .raised e s
    | .ok v => .done v (s.moveSp (s.sp + 4))

/-! ## The step's own parts -/

/-- The run state is not RUNNING (10 R20). -/
def State.isHalted (s : State) : Bool := decide (s.run ≠ .running)

/-- The run test (40 R80): pc - 0x1000 modulo 2^32, unsigned, below rom_size. -/
def State.inRom (s : State) : Bool := decide (s.pc - romBase < s.romSize)

/-- The clean halt (60 R168): nothing but `run` changes. -/
def State.cleanHalt (s : State) : State := { s with run := .success }

/-- The instruction at pc, read from Memory as it stands (30 R65, 20 R54). -/
def State.fetched (s : State) : Except Reject Instr := decodeAt s.byteAt? s.pc.toNat

/-- Opcode fetch and dispatch (40 R81): an unknown opcode raises its fault with the byte as `info` (60 R162). -/
def State.fetchThen (s : State) (k : Instr → Answer) : Answer :=
  match s.fetched with
  | .ok i => k i
  | .error (.unknownOpcode op) => .next (s.raiseFault s.pc ⟨.unknownOpcode, op.setWidth 32⟩)
  | .error .noOpcode => .fault (.opcodeOutsideMemory s.pc)

/-! ## Before a run -/

/-- The launch keeps the bounds the engine assumes (00 R5, 20 R45, 70 R192): the image fits, devices lie above
Memory; and its Memory is in canonical form with no byte beyond MEMORY_SIZE. -/
abbrev Launch.valid (l : Launch) : Prop :=
  l.cfg.valid ∧ romBase.toNat + l.romSize.toNat ≤ l.cfg.memSize.toNat ∧
  l.mem.wf ∧ ∀ c ∈ l.mem, c.1 < l.cfg.memSize.toNat

/-- The launch with a ROM image placed at 0x1000 and its length as rom_size (70 R192). -/
def Launch.withImage (l : Launch) (image : List Byte) : Launch :=
  { l with mem := l.mem.putBytes romBase.toNat image, romSize := BitVec.ofNat 32 image.length }

/-- The first state of a run, or nothing where the launch is refused (93 U19). -/
def Launch.start (l : Launch) : Option State := if l.valid then some (State.resetFrom l) else none

/-- `s` about to run the instruction whose bytes are given (log entry 4): the bytes at pc, RUNNING; and, where pc
is not inside the loaded image, the image's end moved just past the bytes, with hp there as a load of that length
leaves it (10 R24). -/
def State.placeCode (s : State) (bytes : List Byte) : State :=
  let t := { s with mem := s.mem.putBytes s.pc.toNat bytes, run := .running }
  if s.inRom then t
  else
    { t with
      romSize := s.pc - romBase + BitVec.ofNat 32 bytes.length
      hp := s.pc + BitVec.ofNat 32 bytes.length }

end Sys2Proof.Machine
end

