-- ==== Sys2Proof/Machine/Flags.lean ====
section
/-! DEFINITION. The two flags: how `cmp` sets them (42 R120) and what each jump asks of them (42 R121 to R125).
No other instruction reads or writes a flag (10 R13). -/

namespace Sys2Proof.Machine

open Sys2Proof

/-- EQ <- (A = B), LT <- (A <u B) (42 R120). -/
def State.setFlags (s : State) (a b : Word) : State :=
  { s with eqFlag := decide (a = b), ltFlag := decide (a < b) }

/-- `jmp` is always taken (42 R121). -/
def takenJmp (_ : State) : Bool := true

/-- `je` is taken iff EQ = 1 (42 R122). -/
def takenJe (s : State) : Bool := s.eqFlag

/-- `jne` is taken iff EQ = 0 (42 R123). -/
def takenJne (s : State) : Bool := !s.eqFlag

/-- `jlt` is taken iff LT = 1 (42 R124). -/
def takenJlt (s : State) : Bool := s.ltFlag

/-- `jgt` is taken iff LT = 0 and EQ = 0 (42 R125). -/
def takenJgt (s : State) : Bool := !s.ltFlag && !s.eqFlag

end Sys2Proof.Machine
end

