-- ==== Sys2Proof/Machine/Operands.lean ====
section
/-! DEFINITION. The operand addressing subsystem (40 R84 to R89) and the four instruction templates (40 R90).
Every address here is the address of a descriptor's tag byte. -/

namespace Sys2Proof.Machine

open Sys2Proof

/-- The descriptor at `a` as Memory stands. -/
def State.operandAt (s : State) (a : Nat) : Operand := decodeOperand s.byteAt? a

/-- The address a STK descriptor designates (40 R86). -/
def State.stkAddr (s : State) (k : Byte) : Word := s.sp + 4 * k.setWidth 32

/-- The value of the descriptor `o` whose tag byte is at `a` (40 R86): `DecodeOperand` without the length, which
is `o.size`. -/
def State.readOperand (s : State) (o : Operand) (a : Nat) : Except Raise Word :=
  match o with
  | .imm8 v => .ok (v.setWidth 32)
  | .imm32 v => .ok v
  | .reg r => if r.toNat < nreg then .ok (s.getReg r.toNat) else .error ⟨.invalidOperand, BitVec.ofNat 32 a⟩
  | .mem addr => s.memRead4 addr.toNat
  | .stk k => s.memRead4 (s.stkAddr k).toNat
  | .reserved _ => .error ⟨.invalidOperand, BitVec.ofNat 32 a⟩
  | .noTag => .error (boundsRaise a)
  | .noPayload => .error (boundsRaise (a + 1))

/-- `DecodeOperand(a)` (40 R86): the value and the length. -/
def State.decodeOperandAt (s : State) (a : Nat) : Except Raise (Word × Nat) :=
  (s.readOperand (s.operandAt a) a).map fun v => (v, (s.operandAt a).size)

/-- Where a descriptor designates (40 R87). -/
inductive Loc where
  | noLoc
  | regLoc (r : Nat)
  | memLoc (addr : Word)
  deriving DecidableEq, Repr

/-- The location of a descriptor that has been read without a fault (40 R87). -/
def State.locOf (s : State) : Operand → Loc
  | .reg r => .regLoc r.toNat
  | .mem addr => .memLoc addr
  | .stk k => .memLoc (s.stkAddr k)
  | .imm8 _ | .imm32 _ | .reserved _ | .noTag | .noPayload => .noLoc

/-- `ResolveLocation(a)` (40 R87): the decode run a second time, kept for where it points; its faults stand. -/
def State.resolveLocation (s : State) (a : Nat) : Except Raise Loc :=
  (s.readOperand (s.operandAt a) a).map fun _ => s.locOf (s.operandAt a)

/-- `WriteBack(a, v)` (40 R88); to an immediate it is discarded (40 R89). -/
def State.writeBack (s : State) (a : Nat) (v : Word) : Except Raise State :=
  match s.resolveLocation a with
  | .error e => .error e
  | .ok .noLoc => .ok s
  | .ok (.regLoc r) => .ok (s.setReg r v)
  | .ok (.memLoc addr) => s.memWrite4 addr.toNat v

/-- The address of operand A's descriptor: one past the opcode byte (40 R81, `start`). -/
def State.start (s : State) : Nat := s.pc.toNat + 1

/-- The address after operand A (40 R90). -/
def State.nextAfter1 (s : State) (a : Operand) : Word := BitVec.ofNat 32 (s.start + a.size)

/-- The address after operands A and B (40 R90). -/
def State.nextAfter2 (s : State) (a b : Operand) : Word := BitVec.ofNat 32 (s.start + a.size + b.size)

/-- The decode of one operand, then the rest; a fault of the decode ends the instruction (40 R92). -/
def State.withA (s : State) (a : Operand) (k : Word → Answer) : Answer :=
  match s.readOperand a s.start with
  | .error e => .next (s.raiseFault s.pc e)
  | .ok va => k va

/-- The decode of A and then of B, then the rest (40 R92). -/
def State.withAB (s : State) (a b : Operand) (k : Word → Word → Answer) : Answer :=
  s.withA a fun va =>
    match s.readOperand b (s.start + a.size) with
    | .error e => .next (s.raiseFault s.pc e)
    | .ok vb => k va vb

/-- The end of an instruction that writes back (40 R90): the operation's result to the location of the descriptor
at `start`, resolved now (40 R91), then pc. `s` is the state the instruction began in. -/
def State.finishWrite (s : State) (next : Word) : OpResult Word → Answer
  | .raised e s1 => .next (s1.raiseFault s.pc e)
  | .done v s1 =>
    match s1.writeBack s.start v with
    | .error e => .next (s1.raiseFault s.pc e)
    | .ok s2 => .next (s2.setPc next)

/-- The end of an instruction that writes nothing back (40 R90); `next` is where pc goes. -/
def State.finishPlain (s : State) (next : Word) : OpResult Unit → Answer
  | .raised e s1 => .next (s1.raiseFault s.pc e)
  | .done () s1 => .next (s1.setPc next)

/-- Template W2 (40 R90): two operands, the result written to A. -/
def templateW2 (a b : Operand) (op : Word → Word → State → OpResult Word) (s : State) : Answer :=
  s.withAB a b fun va vb => s.finishWrite (s.nextAfter2 a b) (op va vb s)

/-- Template W1 (40 R90): one operand, the result written to it. -/
def templateW1 (a : Operand) (op : Word → State → OpResult Word) (s : State) : Answer :=
  s.withA a fun va => s.finishWrite (s.nextAfter1 a) (op va s)

/-- Template N2 (40 R90): two operands, nothing written back. -/
def templateN2 (a b : Operand) (op : Word → Word → State → OpResult Unit) (s : State) : Answer :=
  s.withAB a b fun va vb => s.finishPlain (s.nextAfter2 a b) (op va vb s)

/-- Template N1 (40 R90) for `push`: one operand, nothing written back, pc to the next instruction. -/
def templateN1 (a : Operand) (op : Word → State → OpResult Unit) (s : State) : Answer :=
  s.withA a fun va => s.finishPlain (s.nextAfter1 a) (op va s)

/-- Template N1 (40 R90) for the jumps: the operand is decoded, and can fault, whether or not the jump is taken;
pc goes to its value if it is, and past the operand if not (42 R126). -/
def templateJump (a : Operand) (taken : State → Bool) (s : State) : Answer :=
  s.withA a fun va => .next (s.setPc (if taken s then va else s.nextAfter1 a))

end Sys2Proof.Machine
end

