-- ==== Sys2Proof/Machine/Alu.lean ====
section
/-! DEFINITION. The ALU instructions (41): unsigned 32-bit, no flag read or written (41 R109). -/

namespace Sys2Proof.Machine

open Sys2Proof

/-- An operation that only computes. -/
def pureOp (f : Word → Word → Word) (a b : Word) (s : State) : OpResult Word := .done (f a b) s

/-- An operation that computes unless B is zero (41 R110). -/
def unlessZero (f : Word → Word → Word) (a b : Word) (s : State) : OpResult Word :=
  if b = 0 then .raised ⟨.divisionByZero, 0⟩ s else .done (f a b) s

/-- The operation of `not`: every bit inverted (41 R108). -/
def notOp (a : Word) (s : State) : OpResult Word := .done (~~~a) s

/-- `add A, B` (41 R100). -/
def execAdd (a b : Operand) (s : State) : Answer := templateW2 a b (pureOp fun x y => x + y) s

/-- `sub A, B` (41 R101): A is the minuend. -/
def execSub (a b : Operand) (s : State) : Answer := templateW2 a b (pureOp fun x y => x - y) s

/-- `div A, B` (41 R102): unsigned quotient, A the dividend. -/
def execDiv (a b : Operand) (s : State) : Answer := templateW2 a b (unlessZero fun x y => x / y) s

/-- `mul A, B` (41 R103): the low 32 bits of the product. -/
def execMul (a b : Operand) (s : State) : Answer := templateW2 a b (pureOp fun x y => x * y) s

/-- `mod A, B` (41 R104): unsigned remainder. -/
def execMod (a b : Operand) (s : State) : Answer := templateW2 a b (unlessZero fun x y => x % y) s

/-- `and A, B` (41 R105). -/
def execAnd (a b : Operand) (s : State) : Answer := templateW2 a b (pureOp fun x y => x &&& y) s

/-- `or A, B` (41 R106). -/
def execOr (a b : Operand) (s : State) : Answer := templateW2 a b (pureOp fun x y => x ||| y) s

/-- `xor A, B` (41 R107). -/
def execXor (a b : Operand) (s : State) : Answer := templateW2 a b (pureOp fun x y => x ^^^ y) s

/-- `not A` (41 R108). -/
def execNot (a : Operand) (s : State) : Answer := templateW1 a notOp s

end Sys2Proof.Machine
end

