-- ==== Sys2Proof/Machine/Branch.lean ====
section
/-! DEFINITION. Compare and control transfer (42). -/

namespace Sys2Proof.Machine

open Sys2Proof

/-- The operation of `cmp` (42 R120). -/
def cmpOp (a b : Word) (s : State) : OpResult Unit := .done () (s.setFlags a b)

/-- `cmp A, B` (42 R120): nothing is written back. -/
def execCmp (a b : Operand) (s : State) : Answer := templateN2 a b cmpOp s

/-- `jmp A` (42 R121). -/
def execJmp (a : Operand) (s : State) : Answer := templateJump a takenJmp s

/-- `je A` (42 R122). -/
def execJe (a : Operand) (s : State) : Answer := templateJump a takenJe s

/-- `jne A` (42 R123). -/
def execJne (a : Operand) (s : State) : Answer := templateJump a takenJne s

/-- `jlt A` (42 R124). -/
def execJlt (a : Operand) (s : State) : Answer := templateJump a takenJlt s

/-- `jgt A` (42 R125). -/
def execJgt (a : Operand) (s : State) : Answer := templateJump a takenJgt s

end Sys2Proof.Machine
end

