-- ==== Sys2Proof/Machine/Heap.lean ====
section
/-! DEFINITION. Heap cells (44). -/

namespace Sys2Proof.Machine

open Sys2Proof

/-- The field of a cell at a byte address, read on the raw path (44 R142, R143). -/
def fieldOp (a : Nat) (s : State) : OpResult Word :=
  match s.memRead4 a with
  | .error e => .raised e s
  | .ok v => .done v s

/-- The operation of `cons` (44 R141). -/
def consOp (a b : Word) (s : State) : OpResult Word := s.allocCell a b

/-- The operation of `car` (44 R142). -/
def carOp (a : Word) (s : State) : OpResult Word := fieldOp a.toNat s

/-- The operation of `cdr` (44 R143): A + 4 is not reduced modulo 2^32. -/
def cdrOp (a : Word) (s : State) : OpResult Word := fieldOp (a.toNat + 4) s

/-- `cons A, B` (44 R141). -/
def execCons (a b : Operand) (s : State) : Answer := templateW2 a b consOp s

/-- `car A` (44 R142). -/
def execCar (a : Operand) (s : State) : Answer := templateW1 a carOp s

/-- `cdr A` (44 R143). -/
def execCdr (a : Operand) (s : State) : Answer := templateW1 a cdrOp s

end Sys2Proof.Machine
end

