-- ==== Sys2Proof/Machine/LoadStore.lean ====
section
/-! DEFINITION. Load and store (43). -/

namespace Sys2Proof.Machine

open Sys2Proof

/-- The operation of `str` (43 R131): the store on the raw path, then the constant 0 for A's location. -/
def storeOp (a b : Word) (s : State) : OpResult Word :=
  match s.memWrite4 a.toNat b with
  | .error e => .raised e s
  | .ok s1 => .done 0 s1

/-- The operation of `ldr` (43 R130): the bus read at B's value, A's value unused. -/
def loadOp (_ b : Word) (s : State) : OpResult Word := s.busRead b

/-- `ldr A, B` (43 R130). -/
def execLdr (a b : Operand) (s : State) : Answer := templateW2 a b loadOp s

/-- `str A, B` (43 R131). -/
def execStr (a b : Operand) (s : State) : Answer := templateW2 a b storeOp s

end Sys2Proof.Machine
end

