-- ==== Sys2Proof/Machine/StackPort.lean ====
section
/-! DEFINITION. Stack and port input and output (45). -/

namespace Sys2Proof.Machine

open Sys2Proof

/-- The operation of `push` but for pc (45 R150). -/
def pushOp (a : Word) (s : State) : OpResult Unit := s.pushWord a

/-- The operation of `pop` (45 R151): A's value is not used. -/
def popOp (_ : Word) (s : State) : OpResult Word := s.popWord

/-- The operation of `in` (45 R152): the port is B's whole value, A's value is not used. -/
def inOp (_ b : Word) (s : State) : OpResult Word := s.ioRead b

/-- The operation of `out` (45 R153): the port is A, the value B. -/
def outOp (a b : Word) (s : State) : OpResult Unit := .done () (s.ioWrite a b)

/-- `push A` (45 R150): A is decoded before sp moves. -/
def execPush (a : Operand) (s : State) : Answer := templateN1 a pushOp s

/-- `pop A` (45 R151): A's location is resolved with the raised sp. -/
def execPop (a : Operand) (s : State) : Answer := templateW1 a popOp s

/-- `in A, B` (45 R152). -/
def execIn (a b : Operand) (s : State) : Answer := templateW2 a b inOp s

/-- `out A, B` (45 R153). -/
def execOut (a b : Operand) (s : State) : Answer := templateN2 a b outOp s

end Sys2Proof.Machine
end

