-- ==== Sys2Proof/Machine/Dispatch.lean ====
section
/-! DEFINITION. The meaning of each instruction, by constructor (40 R81). -/

namespace Sys2Proof.Machine

def exec (i : Instr) (s : State) : Host.Outcome State Fault Refusal :=
  match i with
  | .add a b => Sys2Proof.Machine.execAdd a b s
  | .sub a b => Sys2Proof.Machine.execSub a b s
  | .div a b => Sys2Proof.Machine.execDiv a b s
  | .mul a b => Sys2Proof.Machine.execMul a b s
  | .mod a b => Sys2Proof.Machine.execMod a b s
  | .and a b => Sys2Proof.Machine.execAnd a b s
  | .or a b => Sys2Proof.Machine.execOr a b s
  | .xor a b => Sys2Proof.Machine.execXor a b s
  | .not a => Sys2Proof.Machine.execNot a s
  | .cmp a b => Sys2Proof.Machine.execCmp a b s
  | .jmp a => Sys2Proof.Machine.execJmp a s
  | .je a => Sys2Proof.Machine.execJe a s
  | .jne a => Sys2Proof.Machine.execJne a s
  | .jlt a => Sys2Proof.Machine.execJlt a s
  | .jgt a => Sys2Proof.Machine.execJgt a s
  | .ldr a b => Sys2Proof.Machine.execLdr a b s
  | .str a b => Sys2Proof.Machine.execStr a b s
  | .cons a b => Sys2Proof.Machine.execCons a b s
  | .car a => Sys2Proof.Machine.execCar a s
  | .cdr a => Sys2Proof.Machine.execCdr a s
  | .push a => Sys2Proof.Machine.execPush a s
  | .pop a => Sys2Proof.Machine.execPop a s
  | .inp a b => Sys2Proof.Machine.execIn a b s
  | .out a b => Sys2Proof.Machine.execOut a b s

end Sys2Proof.Machine
end

