-- ==== Sys2Proof/Machine/Step.lean ====
section
/-! DEFINITION. One step of the engine (40 R80, R81), and the placing of an instruction where it fetches. -/

namespace Sys2Proof.Machine

open Sys2Proof

/-- One step (40 R80): nothing in HALTED, the clean halt outside the ROM region, else one instruction. -/
def step (s : State) : Host.Outcome State Fault Refusal :=
  if s.isHalted then .next s
  else if s.inRom then s.fetchThen fun i => exec i s
  else .next s.cleanHalt

/-- `s` about to fetch the instruction of the opcode table's word `w` (log entry 4). -/
def State.withFetchWord (s : State) (nbits w : Nat) : State := s.placeCode (tableBytes nbits w)

end Sys2Proof.Machine
end

