-- ==== Sys2Proof/Safety.lean ====
section
/-! DEFINITION. What a run reports, what a good end is, the invariants the spec names, and the words the
statements about the engine are made of. -/

namespace Sys2Proof.Machine

open Sys2Proof

/-- What the host sees of a step (40 R82, 60 R169): Continue, Halted, Faulted(kind, at, info). -/
inductive Report where
  | continues
  | halted
  | faulted (kind : FaultKind) (opAt info : Word)
  deriving DecidableEq, Repr

/-- The report of a step that left this state (60 R169). -/
def State.report (s : State) : Report :=
  match s.run with
  | .running => .continues
  | .success => .halted
  | .fault k opAt info => .faulted k opAt info

/-- The run has ended well (70 R204). It says nothing of what was executed. -/
abbrev State.endedWell (s : State) : Prop := s.run = .success

/-- The run has ended in one of the seven faults (60 R161). -/
abbrev State.endedInFault (s : State) : Prop := ∃ k opAt info, s.run = .fault k opAt info

/-- The invariants of 10 R25 with what keeps them: parameters in bounds, the image inside Memory, sp within
[0, MEMORY_SIZE] and congruent to MEMORY_SIZE modulo 4, hp a whole number of cells past the image and within
Memory, never both flags (10 R13), Memory in canonical form and within MEMORY_SIZE. -/
structure State.Inv (s : State) : Prop where
  params : s.cfg.valid
  romFits : romBase.toNat + s.romSize.toNat ≤ s.memTop
  spBelow : s.sp.toNat ≤ s.memTop
  spWords : s.sp.toNat % 4 = s.memTop % 4
  hpAbove : romBase.toNat + s.romSize.toNat ≤ s.hp.toNat
  hpBelow : s.hp.toNat ≤ s.memTop
  hpCells : (s.hp.toNat - (romBase.toNat + s.romSize.toNat)) % cellSize = 0
  flags : ¬ (s.eqFlag = true ∧ s.ltFlag = true)
  memForm : s.mem.wf
  memBounds : ∀ c ∈ s.mem, c.1 < s.memTop

/-- The bytes at pc decode to `i`: the instruction `s` is about to run. -/
abbrev State.fetches (s : State) (i : Instr) : Prop := s.fetched = .ok i

/-- Operand A of the instruction at pc decodes, without a fault, to the value `va` (40 R86). -/
abbrev State.readsA (s : State) (a : Operand) (va : Word) : Prop := s.readOperand a s.start = .ok va

/-- Operand B of the instruction at pc, after operand A, decodes without a fault to the value `vb`. -/
abbrev State.readsB (s : State) (a b : Operand) (vb : Word) : Prop :=
  s.readOperand b (s.start + a.size) = .ok vb

/-- `v` written to the location of `o` (40 R88), for an `o` that decodes without a fault: the slot, the four bytes
of Memory, or nothing for an immediate (40 R89). -/
def State.putAt (s : State) (o : Operand) (v : Word) : State :=
  match s.locOf o with
  | .noLoc => s
  | .regLoc r => s.setReg r v
  | .memLoc addr => s.setWord addr.toNat v

/-- The address `p` is one of the four bytes of the word at `addr`. -/
abbrev inWord (addr p : Nat) : Prop := addr ≤ p ∧ p < addr + 4

/-- The two states are equal but for the fields a fault writes (60 R160, R171): run, pc, and the model's draws. -/
abbrev State.sameButHalt (s t : State) : Prop :=
  t = { s with run := t.run, pc := t.pc, draws := t.draws }

/-- The faults of operand decoding end the instruction in their order, before anything else it does (40 R92,
60 R170): A's fault, and where A decodes, B's; nothing but the halt changes. -/
def State.takesOperandFaults (s : State) (i : Instr) : Prop :=
  (∀ e, s.readOperand i.operandA s.start = .error e → exec i s = .next (s.raiseFault s.pc e)) ∧
  ∀ b va e, i.operandB? = some b → s.readsA i.operandA va →
    s.readOperand b (s.start + i.operandA.size) = .error e → exec i s = .next (s.raiseFault s.pc e)

/-- `t` has every slot and every byte of Memory `s` has, but for the location `l`. -/
def State.onlyAt (s t : State) (l : Loc) : Prop :=
  (∀ r, l ≠ .regLoc r → t.getReg r = s.getReg r) ∧
  ∀ p, (∀ addr, l = .memLoc addr → ¬ inWord addr.toNat p) → t.mem.get p = s.mem.get p

/-- `t` has the parameters, the image length and the flags of `s`: no instruction but `cmp` writes a flag. -/
def State.sameFlags (s t : State) : Prop :=
  t.cfg = s.cfg ∧ t.romSize = s.romSize ∧ t.eqFlag = s.eqFlag ∧ t.ltFlag = s.ltFlag

end Sys2Proof.Machine
end

