-- ==== Sys2Proof/Certificates/Slice0/Obligations.lean ====
section
/-! DEFINITION. The statements about the engine. Each docstring names the rule of spec/ it formalises. In all of
them a fault of the engine is a next state whose run is a fault; pc after a fault is a free value, and no
statement rests on it, on a device's answer or on a port's answer. -/

open Sys2Proof Sys2Proof.Machine

/-! ## Encoding -/

/-- 30 R60, R63, R65, R66: wherever the bytes of a well-formed instruction lie, the decoder reads it back, with
every operand at every value. -/
def Obligations.DecodeEncodeRoundTrip : Prop :=
  ∀ (i : Instr) (rd : Nat → Option Byte) (p : Nat), i.wf = true →
    (∀ k, k < (encode i).length → rd (p + k) = (encode i)[k]?) → decodeAt rd p = .ok i

/-- 30 R65, R69: the bytes a well-formed instruction was decoded from are its encoding: no byte has another
meaning and no bit is left out. -/
def Obligations.EncodeDecodeRoundTrip : Prop :=
  ∀ (i : Instr) (rd : Nat → Option Byte) (p : Nat), decodeAt rd p = .ok i → i.wf = true →
    ∀ k, k < (encode i).length → rd (p + k) = (encode i)[k]?

/-- 30 R60: an instruction of one operand is 3 or 6 bytes long, one of two operands 5, 8 or 11. -/
def Obligations.InstructionLengths : Prop :=
  ∀ i : Instr, i.wf = true →
    (i.operandB? = none → (encode i).length = 3 ∨ (encode i).length = 6) ∧
    (∀ b, i.operandB? = some b → (encode i).length = 5 ∨ (encode i).length = 8 ∨ (encode i).length = 11)

/-- 30 R66, R67: the opcode byte alone selects the instruction: 0x01 to 0x18 select one, and 0x00 and 0x19 to
0xFF are rejected by name. -/
def Obligations.OpcodeByteSelects : Prop :=
  ∀ (rd : Nat → Option Byte) (p : Nat) (op : Byte), rd p = some op →
    (1 ≤ op.toNat ∧ op.toNat ≤ 0x18 → ∃ i, decodeAt rd p = .ok i ∧ opcodeByte i = op) ∧
    (op.toNat = 0 ∨ 0x18 < op.toNat → decodeAt rd p = .error (.unknownOpcode op))

/-- Words written out from 30 R63 and R66, one or more of every family (95, vectors O5, A16, B6, L10, H1, K11, K15). -/
def Obligations.WrittenWordsDecode : Prop :=
  decode [0x01, 0x05, 0x01, 0x05, 0x00] = .ok (.add (.stk 1) (.stk 0)) ∧
  decode [0x09, 0x03, 0x03] = .ok (.not (.reg 3)) ∧
  decode [0x0F, 0x02, 0x00, 0x20, 0x00, 0x00] = .ok (.jgt (.imm32 0x2000)) ∧
  decode [0x11, 0x04, 0x04, 0x20, 0x00, 0x00, 0x03, 0x03] = .ok (.str (.mem 0x2004) (.reg 3)) ∧
  decode [0x12, 0x03, 0x00, 0x01, 0x14] = .ok (.cons (.reg 0) (.imm8 20)) ∧
  decode [0x16, 0x04, 0x00, 0x20, 0x00, 0x00] = .ok (.pop (.mem 0x2000)) ∧
  decode [0x18, 0x03, 0x00, 0x03, 0x01] = .ok (.out (.reg 0) (.reg 1))

/-! ## Memory and operands -/

/-- 20 R30: a word stored at `a` puts its bits 8i+7 to 8i in the byte at a + i, it is read back at `a`, and every
other byte of Memory keeps its value. -/
def Obligations.StoreIsLittleEndian : Prop :=
  ∀ (s : State) (a : Nat) (v : Word),
    (∀ i, i < 4 → (s.setWord a v).mem.get (a + i) = v.extractLsb' (8 * i) 8) ∧
    (s.setWord a v).wordAt a = v ∧
    ∀ p, ¬ inWord a p → (s.setWord a v).mem.get p = s.mem.get p

/-- 30 R68: decoding a descriptor with a reserved tag, or a REG descriptor with a payload of 8 to 255, raises
InvalidOperand with the address of its tag byte. -/
def Obligations.ReservedDescriptorsFault : Prop :=
  ∀ (s : State) (a : Nat) (tag : Byte), s.byteAt? a = some tag →
    (tag.toNat = 0 ∨ 5 < tag.toNat →
      s.decodeOperandAt a = .error ⟨.invalidOperand, BitVec.ofNat 32 a⟩) ∧
    (∀ r : Byte, tag.toNat = 3 → s.byteAt? (a + 1) = some r → 8 ≤ r.toNat →
      s.decodeOperandAt a = .error ⟨.invalidOperand, BitVec.ofNat 32 a⟩)

/-- 40 R86: `DecodeOperand(a)`, tag by tag, with its faults in the order its text meets them. -/
def Obligations.DecodeOperandByTag : Prop :=
  ∀ (s : State) (a : Nat), s.decodeOperandAt a =
    match s.byteAt? a with
    | none => .error (boundsRaise a)
    | some tag =>
      match tag.toNat with
      | 1 => match s.byteAt? (a + 1) with
        | none => .error (boundsRaise (a + 1))
        | some i => .ok (i.setWidth 32, 2)
      | 2 => (s.memRead4 (a + 1)).map fun i => (i, 5)
      | 3 => match s.byteAt? (a + 1) with
        | none => .error (boundsRaise (a + 1))
        | some r => if 8 ≤ r.toNat then .error ⟨.invalidOperand, BitVec.ofNat 32 a⟩ else .ok (s.getReg r.toNat, 2)
      | 4 => match s.memRead4 (a + 1) with
        | .error e => .error e
        | .ok addr => (s.memRead4 addr.toNat).map fun v => (v, 5)
      | 5 => match s.byteAt? (a + 1) with
        | none => .error (boundsRaise (a + 1))
        | some k => (s.memRead4 ((s.sp.toNat + 4 * k.toNat) % 2 ^ 32)).map fun v => (v, 2)
      | _ => .error ⟨.invalidOperand, BitVec.ofNat 32 a⟩

/-- 40 R87, R88: a write-back raises what a second decode of the descriptor raises, and where that decodes it
writes the slot of a REG descriptor, the word of a MEM or STK descriptor, and cannot fail. -/
def Obligations.WriteBackWritesLocation : Prop :=
  ∀ (s : State) (a : Nat) (v : Word),
    (∀ e, s.decodeOperandAt a = .error e → s.writeBack a v = .error e) ∧
    (∀ w n, s.decodeOperandAt a = .ok (w, n) →
      (∀ r, s.operandAt a = .reg r → s.writeBack a v = .ok (s.setReg r.toNat v)) ∧
      (∀ addr, s.operandAt a = .mem addr → s.writeBack a v = .ok (s.setWord addr.toNat v)) ∧
      (∀ k, s.operandAt a = .stk k →
        s.writeBack a v = .ok (s.setWord ((s.sp.toNat + 4 * k.toNat) % 2 ^ 32) v)))

/-- 40 R89: a write-back to an immediate descriptor changes no state and raises no fault. -/
def Obligations.ImmediateWriteBackDiscarded : Prop :=
  ∀ (s : State) (a : Nat) (v : Word),
    ((∃ n, s.operandAt a = .imm8 n) ∨ ∃ n, s.operandAt a = .imm32 n) → s.writeBack a v = .ok s

/-! ## ALU -/

/-- 41 R100: `add`. -/
def Obligations.AddWritesSum : Prop :=
  ∀ (a b : Operand) (s : State), opcodeByte (.add a b) = 0x01 ∧ s.takesOperandFaults (Instr.add a b) ∧
    (s.fetches (.add a b) → ∀ va vb, s.readsA a va → s.readsB a b vb →
      exec (.add a b) s =
        .next ((s.putAt a (BitVec.ofNat 32 (va.toNat + vb.toNat))).setPc (s.nextAfter2 a b)))

/-- 41 R101: `sub`; A is the minuend. -/
def Obligations.SubWritesDifference : Prop :=
  ∀ (a b : Operand) (s : State), opcodeByte (.sub a b) = 0x02 ∧ s.takesOperandFaults (Instr.sub a b) ∧
    (s.fetches (.sub a b) → ∀ va vb, s.readsA a va → s.readsB a b vb →
      exec (.sub a b) s =
        .next ((s.putAt a (BitVec.ofInt 32 ((va.toNat : Int) - vb.toNat))).setPc (s.nextAfter2 a b)))

/-- 41 R102, R110: `div`, the floor of the quotient; DivisionByZero, with nothing written, when B = 0. -/
def Obligations.DivWritesQuotient : Prop :=
  ∀ (a b : Operand) (s : State), opcodeByte (.div a b) = 0x03 ∧ s.takesOperandFaults (Instr.div a b) ∧
    (s.fetches (.div a b) → ∀ va vb, s.readsA a va → s.readsB a b vb → vb ≠ 0 →
      exec (.div a b) s =
        .next ((s.putAt a (BitVec.ofNat 32 (va.toNat / vb.toNat))).setPc (s.nextAfter2 a b))) ∧
    (∀ va, s.readsA a va → s.readsB a b 0 →
      exec (.div a b) s = .next (s.raiseFault s.pc ⟨.divisionByZero, 0⟩))

/-- 41 R103: `mul`, the low 32 bits of the product. -/
def Obligations.MulWritesLowProduct : Prop :=
  ∀ (a b : Operand) (s : State), opcodeByte (.mul a b) = 0x04 ∧ s.takesOperandFaults (Instr.mul a b) ∧
    (s.fetches (.mul a b) → ∀ va vb, s.readsA a va → s.readsB a b vb →
      exec (.mul a b) s =
        .next ((s.putAt a (BitVec.ofNat 32 (va.toNat * vb.toNat))).setPc (s.nextAfter2 a b)))

/-- 41 R104, R110: `mod`, A - B * floor(A / B); DivisionByZero, with nothing written, when B = 0. -/
def Obligations.ModWritesRemainder : Prop :=
  ∀ (a b : Operand) (s : State), opcodeByte (.mod a b) = 0x05 ∧ s.takesOperandFaults (Instr.mod a b) ∧
    (s.fetches (.mod a b) → ∀ va vb, s.readsA a va → s.readsB a b vb → vb ≠ 0 →
      exec (.mod a b) s =
        .next ((s.putAt a (BitVec.ofNat 32 (va.toNat - vb.toNat * (va.toNat / vb.toNat)))).setPc
          (s.nextAfter2 a b))) ∧
    (∀ va, s.readsA a va → s.readsB a b 0 →
      exec (.mod a b) s = .next (s.raiseFault s.pc ⟨.divisionByZero, 0⟩))

/-- 41 R105: `and`, bit by bit. -/
def Obligations.AndWritesBitwiseAnd : Prop :=
  ∀ (a b : Operand) (s : State), opcodeByte (.and a b) = 0x06 ∧ s.takesOperandFaults (Instr.and a b) ∧
    (s.fetches (.and a b) → ∀ va vb, s.readsA a va → s.readsB a b vb →
      ∃ v : Word, (∀ i, i < 32 → v.getLsbD i = (va.getLsbD i && vb.getLsbD i)) ∧
        exec (.and a b) s = .next ((s.putAt a v).setPc (s.nextAfter2 a b)))

/-- 41 R106: `or`, bit by bit. -/
def Obligations.OrWritesBitwiseOr : Prop :=
  ∀ (a b : Operand) (s : State), opcodeByte (.or a b) = 0x07 ∧ s.takesOperandFaults (Instr.or a b) ∧
    (s.fetches (.or a b) → ∀ va vb, s.readsA a va → s.readsB a b vb →
      ∃ v : Word, (∀ i, i < 32 → v.getLsbD i = (va.getLsbD i || vb.getLsbD i)) ∧
        exec (.or a b) s = .next ((s.putAt a v).setPc (s.nextAfter2 a b)))

/-- 41 R107: `xor`, bit by bit. -/
def Obligations.XorWritesBitwiseXor : Prop :=
  ∀ (a b : Operand) (s : State), opcodeByte (.xor a b) = 0x08 ∧ s.takesOperandFaults (Instr.xor a b) ∧
    (s.fetches (.xor a b) → ∀ va vb, s.readsA a va → s.readsB a b vb →
      ∃ v : Word, (∀ i, i < 32 → v.getLsbD i = (va.getLsbD i ^^ vb.getLsbD i)) ∧
        exec (.xor a b) s = .next ((s.putAt a v).setPc (s.nextAfter2 a b)))

/-- 41 R108: `not`, 0xFFFFFFFF - A. -/
def Obligations.NotWritesComplement : Prop :=
  ∀ (a : Operand) (s : State), opcodeByte (.not a) = 0x09 ∧ s.takesOperandFaults (Instr.not a) ∧
    (s.fetches (.not a) → ∀ va, s.readsA a va →
      exec (.not a) s =
        .next ((s.putAt a (BitVec.ofNat 32 (0xFFFFFFFF - va.toNat))).setPc (s.nextAfter1 a)))

/-! ## Compare and jumps -/

/-- 42 R120: `cmp` sets EQ iff A = B and LT iff A < B unsigned, and changes nothing else but pc. -/
def Obligations.CmpSetsFlags : Prop :=
  ∀ (a b : Operand) (s : State), opcodeByte (.cmp a b) = 0x0A ∧ s.takesOperandFaults (Instr.cmp a b) ∧
    ∀ va vb, s.readsA a va → s.readsB a b vb →
      exec (.cmp a b) s = .next { s with
        eqFlag := decide (va = vb), ltFlag := decide (va.toNat < vb.toNat), pc := s.nextAfter2 a b }

/-- 42 R121: `jmp`. -/
def Obligations.JmpSetsPc : Prop :=
  ∀ (a : Operand) (s : State), opcodeByte (.jmp a) = 0x0B ∧ s.takesOperandFaults (Instr.jmp a) ∧
    ∀ va, s.readsA a va → exec (.jmp a) s = .next (s.setPc va)

/-- 42 R122: `je`. -/
def Obligations.JeJumpsIffEqual : Prop :=
  ∀ (a : Operand) (s : State), opcodeByte (.je a) = 0x0C ∧ s.takesOperandFaults (Instr.je a) ∧
    ∀ va, s.readsA a va →
      (s.eqFlag = true → exec (.je a) s = .next (s.setPc va)) ∧
      (s.eqFlag = false → exec (.je a) s = .next (s.setPc (s.nextAfter1 a)))

/-- 42 R123: `jne`. -/
def Obligations.JneJumpsIffNotEqual : Prop :=
  ∀ (a : Operand) (s : State), opcodeByte (.jne a) = 0x0D ∧ s.takesOperandFaults (Instr.jne a) ∧
    ∀ va, s.readsA a va →
      (s.eqFlag = false → exec (.jne a) s = .next (s.setPc va)) ∧
      (s.eqFlag = true → exec (.jne a) s = .next (s.setPc (s.nextAfter1 a)))

/-- 42 R124: `jlt`. -/
def Obligations.JltJumpsIffLess : Prop :=
  ∀ (a : Operand) (s : State), opcodeByte (.jlt a) = 0x0E ∧ s.takesOperandFaults (Instr.jlt a) ∧
    ∀ va, s.readsA a va →
      (s.ltFlag = true → exec (.jlt a) s = .next (s.setPc va)) ∧
      (s.ltFlag = false → exec (.jlt a) s = .next (s.setPc (s.nextAfter1 a)))

/-- 42 R125: `jgt`. -/
def Obligations.JgtJumpsIffGreater : Prop :=
  ∀ (a : Operand) (s : State), opcodeByte (.jgt a) = 0x0F ∧ s.takesOperandFaults (Instr.jgt a) ∧
    ∀ va, s.readsA a va →
      (s.ltFlag = false ∧ s.eqFlag = false → exec (.jgt a) s = .next (s.setPc va)) ∧
      (s.ltFlag = true ∨ s.eqFlag = true → exec (.jgt a) s = .next (s.setPc (s.nextAfter1 a)))

/-! ## Load and store -/

/-- 43 R130: `ldr` writes a device's answer, recorded once, or the word of Memory at B's value, and raises
OutOfBounds where neither answers. The answer is a free value. -/
def Obligations.LdrReadsBus : Prop :=
  ∀ (a b : Operand) (s : State), opcodeByte (.ldr a b) = 0x10 ∧ s.takesOperandFaults (Instr.ldr a b) ∧
    ∀ va vb, s.readsA a va → s.readsB a b vb →
      (s.fetches (.ldr a b) → s.cfg.isDevice vb = true → ∃ v : Word, exec (.ldr a b) s =
        .next (((s.recordRead (.devRead vb v)).putAt a v).setPc (s.nextAfter2 a b))) ∧
      (s.fetches (.ldr a b) → s.cfg.isDevice vb = false → vb.toNat + 4 ≤ s.memTop → exec (.ldr a b) s =
        .next ((s.putAt a (s.wordAt vb.toNat)).setPc (s.nextAfter2 a b))) ∧
      (s.cfg.isDevice vb = false → s.memTop < vb.toNat + 4 →
        exec (.ldr a b) s = .next (s.raiseFault s.pc ⟨.outOfBounds, vb⟩))

/-- 43 R131, 40 R91: `str` stores B at A's value, then writes 0 to the location of the descriptor that then stands
at `start`, or takes the fault that descriptor's decode raises, the store kept; OutOfBounds before any byte is
written where the word does not fit in Memory, a device address included. -/
def Obligations.StrStoresThenZeroes : Prop :=
  ∀ (a b : Operand) (s : State), opcodeByte (.str a b) = 0x11 ∧ s.takesOperandFaults (Instr.str a b) ∧
    ∀ va vb, s.readsA a va → s.readsB a b vb →
      (s.memTop < va.toNat + 4 → exec (.str a b) s = .next (s.raiseFault s.pc ⟨.outOfBounds, va⟩)) ∧
      (va.toNat + 4 ≤ s.memTop →
        (∀ w, (s.setWord va.toNat vb).readOperand ((s.setWord va.toNat vb).operandAt s.start) s.start = .ok w →
          exec (.str a b) s = .next
            (((s.setWord va.toNat vb).putAt ((s.setWord va.toNat vb).operandAt s.start) 0).setPc
              (s.nextAfter2 a b))) ∧
        (∀ e, (s.setWord va.toNat vb).readOperand ((s.setWord va.toNat vb).operandAt s.start) s.start = .error e →
          exec (.str a b) s = .next ((s.setWord va.toNat vb).raiseFault s.pc e)))

/-- 43 R131, 40 R91: where the store does not touch `str`'s own first descriptor, the 0 goes to A's location. -/
def Obligations.StrZeroesAddressOperand : Prop :=
  ∀ (a b : Operand) (s : State) (va vb : Word), s.fetches (.str a b) → s.readsA a va → s.readsB a b vb →
    va.toNat + 4 ≤ s.memTop → va.toNat + 4 ≤ s.start ∨ s.start + a.size ≤ va.toNat →
      exec (.str a b) s = .next (((s.setWord va.toNat vb).putAt a 0).setPc (s.nextAfter2 a b))

/-! ## Heap cells -/

/-- 44 R140, R141: `cons` allocates the 8 bytes at hp, writes A and B there, raises hp, and writes the cell's offset
to the location of the descriptor that then stands at `start`, or takes the fault that descriptor's decode
raises; HeapExhausted, with nothing written, where the cell does not fit. -/
def Obligations.ConsBuildsCell : Prop :=
  ∀ (a b : Operand) (s : State), opcodeByte (.cons a b) = 0x12 ∧ s.takesOperandFaults (Instr.cons a b) ∧
    ∀ va vb, s.readsA a va → s.readsB a b vb →
      (s.memTop < s.hp.toNat + 8 → exec (.cons a b) s = .next (s.raiseFault s.pc ⟨.heapExhausted, s.hp⟩)) ∧
      (s.hp.toNat + 8 ≤ s.memTop → ∀ s1,
        s1 = ((s.moveHp (s.hp + 8)).setWord s.hp.toNat va).setWord (s.hp.toNat + 4) vb →
        (∀ w, s1.readOperand (s1.operandAt s.start) s.start = .ok w → exec (.cons a b) s =
          .next ((s1.putAt (s1.operandAt s.start) s.hp).setPc (s.nextAfter2 a b))) ∧
        (∀ e, s1.readOperand (s1.operandAt s.start) s.start = .error e →
          exec (.cons a b) s = .next (s1.raiseFault s.pc e)))

/-- 44 R142: `car` writes the word at A's value. -/
def Obligations.CarWritesFirstField : Prop :=
  ∀ (a : Operand) (s : State), opcodeByte (.car a) = 0x13 ∧ s.takesOperandFaults (Instr.car a) ∧
    ∀ va, s.readsA a va →
      (s.fetches (.car a) → va.toNat + 4 ≤ s.memTop → exec (.car a) s =
        .next ((s.putAt a (s.wordAt va.toNat)).setPc (s.nextAfter1 a))) ∧
      (s.memTop < va.toNat + 4 → exec (.car a) s = .next (s.raiseFault s.pc ⟨.outOfBounds, va⟩))

/-- 44 R143: `cdr` writes the word at A's value plus 4, which does not wrap; the fault record does. -/
def Obligations.CdrWritesSecondField : Prop :=
  ∀ (a : Operand) (s : State), opcodeByte (.cdr a) = 0x14 ∧ s.takesOperandFaults (Instr.cdr a) ∧
    ∀ va, s.readsA a va →
      (s.fetches (.cdr a) → va.toNat + 8 ≤ s.memTop → exec (.cdr a) s =
        .next ((s.putAt a (s.wordAt (va.toNat + 4))).setPc (s.nextAfter1 a))) ∧
      (s.memTop < va.toNat + 8 → exec (.cdr a) s = .next (s.raiseFault s.pc ⟨.outOfBounds, va + 4⟩))

/-- 44 R145: the cell `cons` built gives back its two values: where the write-back decodes and does not fall on the
cell, any later `car` (`cdr`) of its offset, in a state in which no byte of the cell has changed, writes the first
(second) value. -/
def Obligations.ConsThenCarCdr : Prop :=
  ∀ (a b : Operand) (s s1 : State) (va vb w : Word), s.readsA a va → s.readsB a b vb → s.hp.toNat + 8 ≤ s.memTop →
    s1 = ((s.moveHp (s.hp + 8)).setWord s.hp.toNat va).setWord (s.hp.toNat + 4) vb →
    s1.readOperand (s1.operandAt s.start) s.start = .ok w →
    (∀ addr, s1.locOf (s1.operandAt s.start) = .memLoc addr →
      addr.toNat + 4 ≤ s.hp.toNat ∨ s.hp.toNat + 8 ≤ addr.toNat) →
    ∃ t, exec (.cons a b) s = .next t ∧ ∀ (c : Operand) (u : State), u.cfg = t.cfg →
      (∀ p, s.hp.toNat ≤ p → p < s.hp.toNat + 8 → u.mem.get p = t.mem.get p) → u.readsA c s.hp →
      (u.fetches (.car c) → exec (.car c) u = .next ((u.putAt c va).setPc (u.nextAfter1 c))) ∧
      (u.fetches (.cdr c) → exec (.cdr c) u = .next ((u.putAt c vb).setPc (u.nextAfter1 c)))

/-! ## Stack and ports -/

/-- 45 R150: `push` lowers sp by 4 and writes A's value there; StackOverflow, with nothing changed, where sp < 4. -/
def Obligations.PushWritesTop : Prop :=
  ∀ (a : Operand) (s : State), opcodeByte (.push a) = 0x15 ∧ s.takesOperandFaults (Instr.push a) ∧
    ∀ va, s.readsA a va →
      (s.sp.toNat < 4 → exec (.push a) s = .next (s.raiseFault s.pc ⟨.stackOverflow, s.sp⟩)) ∧
      (4 ≤ s.sp.toNat → s.sp.toNat ≤ s.memTop → exec (.push a) s =
        .next (((s.moveSp (s.sp - 4)).setWord (s.sp.toNat - 4) va).setPc (s.nextAfter1 a)))

/-- 45 R151, 40 R91: `pop` reads the word at sp, raises sp by 4 and writes the word to A's location resolved with
the raised sp, or takes the fault of that resolution, sp raised; StackUnderflow, with nothing changed, where the
stack is empty. -/
def Obligations.PopReadsTop : Prop :=
  ∀ (a : Operand) (s : State), opcodeByte (.pop a) = 0x16 ∧ s.takesOperandFaults (Instr.pop a) ∧
    ∀ va, s.readsA a va →
      (s.memTop < s.sp.toNat + 4 → exec (.pop a) s = .next (s.raiseFault s.pc ⟨.stackUnderflow, s.sp⟩)) ∧
      (s.fetches (.pop a) → s.sp.toNat + 4 ≤ s.memTop →
        (∀ w, (s.moveSp (s.sp + 4)).readOperand a s.start = .ok w → exec (.pop a) s =
          .next (((s.moveSp (s.sp + 4)).putAt a (s.wordAt s.sp.toNat)).setPc (s.nextAfter1 a))) ∧
        (∀ e, (s.moveSp (s.sp + 4)).readOperand a s.start = .error e → exec (.pop a) s =
          .next ((s.moveSp (s.sp + 4)).raiseFault s.pc e)))

/-- 45 R151: `push A` then `pop B` copies A's value to the location of B and leaves sp as it was. -/
def Obligations.PushThenPopCopies : Prop :=
  ∀ (a b : Operand) (s t : State) (va w0 w : Word), s.readsA a va → 4 ≤ s.sp.toNat → s.sp.toNat ≤ s.memTop →
    exec (.push a) s = .next t → t.fetches (.pop b) → t.readsA b w0 →
    (t.moveSp s.sp).readOperand b t.start = .ok w →
      exec (.pop b) t = .next (((t.moveSp s.sp).putAt b va).setPc (t.nextAfter1 b))

/-- 45 R152: `in` writes the answer of the port that B's whole value names, recorded once. The answer is a free
value. -/
def Obligations.InReadsPort : Prop :=
  ∀ (a b : Operand) (s : State), opcodeByte (.inp a b) = 0x17 ∧ s.takesOperandFaults (Instr.inp a b) ∧
    (s.fetches (.inp a b) → ∀ va vb, s.readsA a va → s.readsB a b vb → ∃ v : Word, exec (.inp a b) s =
      .next (((s.recordRead (.ioRead vb v)).putAt a v).setPc (s.nextAfter2 a b)))

/-- 45 R153: `out` records one write of B's value to the port A's value names; nothing else but pc changes. -/
def Obligations.OutWritesPort : Prop :=
  ∀ (a b : Operand) (s : State), opcodeByte (.out a b) = 0x18 ∧ s.takesOperandFaults (Instr.out a b) ∧
    ∀ va vb, s.readsA a va → s.readsB a b vb →
      exec (.out a b) s = .next { s with trace := s.trace ++ [.ioWrite va vb], pc := s.nextAfter2 a b }

/-! ## The step and the run -/

/-- 40 R81: when the run test passes and the bytes at pc decode to an instruction, the step is the instruction. -/
def Obligations.StepRunsFetched : Prop :=
  ∀ (s : State) (i : Instr), s.run = .running → s.inRom = true → s.fetches i → step s = exec i s

/-- 40 R80, 60 R168: a step in HALTED changes nothing; a step with (pc - 0x1000) mod 2^32 at or above rom_size
changes nothing but run, which becomes HALTED(Success). With the image inside Memory that is a pc outside the ROM
region, on either side of it. -/
def Obligations.RunTestHalts : Prop :=
  ∀ s : State,
    (s.run ≠ .running → step s = .next s) ∧
    (s.run = .running → s.romSize.toNat ≤ (s.pc.toNat + (2 ^ 32 - 0x1000)) % 2 ^ 32 →
      step s = .next { s with run := .success }) ∧
    (0x1000 + s.romSize.toNat ≤ s.memTop → s.pc.toNat < 0x1000 ∨ 0x1000 + s.romSize.toNat ≤ s.pc.toNat →
      s.romSize.toNat ≤ (s.pc.toNat + (2 ^ 32 - 0x1000)) % 2 ^ 32)

/-- 60 R162: an opcode byte of 0x00 or 0x19 to 0xFF inside the ROM region raises UnknownOpcode with that byte and
its address, and nothing else changes. -/
def Obligations.UnknownOpcodeFaults : Prop :=
  ∀ (s : State) (op : Byte), s.run = .running → s.inRom = true → s.byteAt? s.pc.toNat = some op →
    op.toNat = 0 ∨ 0x18 < op.toNat →
    ∃ t, step s = .next t ∧ t.run = .fault .unknownOpcode s.pc (op.setWidth 32) ∧ s.sameButHalt t

/-- 70 R204: a run ends well exactly at a step that begins with (pc - 0x1000) mod 2^32 at or above rom_size: no
instruction and no fault ends it so. -/
def Obligations.SuccessOnlyByRunTest : Prop :=
  ∀ s t : State, s.run = .running → step s = .next t →
    (t.run = .success ↔ s.romSize.toNat ≤ (s.pc.toNat + (2 ^ 32 - 0x1000)) % 2 ^ 32)

/-- 60 R171: an instruction that faults has changed nothing but the halt, except `pop`, `str` and `cons`. sp within
Memory is the invariant of 10 R25. -/
def Obligations.FaultLeavesStateAlone : Prop :=
  ∀ (i : Instr) (s t : State), s.fetches i → s.sp.toNat ≤ s.memTop → s.run = .running → exec i s = .next t →
    t.run ≠ .running →
    (∀ a, i ≠ .pop a) → (∀ a b, i ≠ .str a b) → (∀ a b, i ≠ .cons a b) → s.sameButHalt t

/-- 10 R25 (with R13): every step keeps the invariants. -/
def Obligations.StepKeepsInvariant : Prop :=
  ∀ s t : State, s.Inv → step s = .next t → t.Inv

/-- The invariants hold right after reset. It rests on the model's choices for the launch (log entries 1 to 4). -/
def Obligations.ResetMeetsInvariant : Prop := State.reset.Inv

/-- 70 R190, R192: the invariants hold after the reset of any launch within the bounds. -/
def Obligations.LaunchMeetsInvariant : Prop :=
  ∀ l : Launch, l.valid → (State.resetFrom l).Inv

/-- 70 R190: what reset sets, from whatever the host hands over; the slots and Memory are as handed over. -/
def Obligations.ResetValues : Prop :=
  ∀ l : Launch, (State.resetFrom l).pc = 0x1000 ∧ (State.resetFrom l).sp = l.cfg.memSize ∧
    (State.resetFrom l).eqFlag = false ∧ (State.resetFrom l).ltFlag = false ∧
    (State.resetFrom l).hp = 0x1000 + l.romSize ∧ (State.resetFrom l).romSize = l.romSize ∧
    (State.resetFrom l).run = .running ∧ (State.resetFrom l).trace = [] ∧
    (State.resetFrom l).x = l.x ∧ (State.resetFrom l).mem = l.mem

/-- 70 R192, 10 R24: an image that fits is placed with its byte i at 0x1000 + i, every other byte of Memory is as the
host handed it over, and rom_size is the image's length. -/
def Obligations.LaunchLoadsImage : Prop :=
  ∀ (l : Launch) (image : List Byte), 0x1000 + image.length ≤ l.cfg.memSize.toNat →
    (State.resetFrom (l.withImage image)).romSize.toNat = image.length ∧
    (∀ i, i < image.length → (State.resetFrom (l.withImage image)).byteAt? (0x1000 + i) = image[i]?) ∧
    ∀ p, p < 0x1000 ∨ 0x1000 + image.length ≤ p →
      (State.resetFrom (l.withImage image)).mem.get p = l.mem.get p

/-- 40 R81, R82: a state that meets the invariants always has a next state: the opcode fetch cannot leave Memory, and
nothing the engine can meet stops the model. -/
def Obligations.StepAlwaysAnswers : Prop :=
  ∀ s : State, s.Inv → ∃ t, step s = .next t

/-- 10 R10, R18: no step changes the parameters or rom_size. -/
def Obligations.ParametersConstant : Prop :=
  ∀ s t : State, step s = .next t → t.cfg = s.cfg ∧ t.romSize = s.romSize

/-- 10 R23, 20 R35: a step adds at most one transaction to the trace, and takes none away. -/
def Obligations.TraceOnlyGrows : Prop :=
  ∀ s t : State, step s = .next t → t.trace = s.trace ∨ ∃ e, t.trace = s.trace ++ [e]

/-! ## Frames -/

/-- 41 R109, 44 R142, R143: add, sub, div, mul, mod, and, or, xor, not, car and cdr write A's location and pc only. -/
def Obligations.ComputeFrame : Prop :=
  ∀ (i : Instr) (a b : Operand) (s t : State),
    (i = .add a b ∨ i = .sub a b ∨ i = .div a b ∨ i = .mul a b ∨ i = .mod a b ∨ i = .and a b ∨ i = .or a b ∨
      i = .xor a b ∨ i = .not a ∨ i = .car a ∨ i = .cdr a) →
    s.fetches i → exec i s = .next t →
    s.sameFlags t ∧ t.sp = s.sp ∧ t.hp = s.hp ∧ t.trace = s.trace ∧ s.onlyAt t (s.locOf a)

/-- 42 R126: jmp, je, jne, jlt and jgt write nothing but pc (a fault of the operand halts). -/
def Obligations.JumpFrame : Prop :=
  ∀ (i : Instr) (a : Operand) (s t : State),
    (i = .jmp a ∨ i = .je a ∨ i = .jne a ∨ i = .jlt a ∨ i = .jgt a) → exec i s = .next t → s.sameButHalt t

/-- 42 R120: cmp writes the two flags and pc only. -/
def Obligations.CmpFrame : Prop :=
  ∀ (a b : Operand) (s t : State), exec (.cmp a b) s = .next t →
    t = { s with eqFlag := t.eqFlag, ltFlag := t.ltFlag, run := t.run, pc := t.pc, draws := t.draws }

/-- 45 R153: out writes the trace and pc only. -/
def Obligations.OutFrame : Prop :=
  ∀ (a b : Operand) (s t : State), exec (.out a b) s = .next t →
    t = { s with trace := t.trace, run := t.run, pc := t.pc, draws := t.draws }

/-- 43 R130, 45 R152: ldr and in write A's location, the trace and pc only. -/
def Obligations.LoadInputFrame : Prop :=
  ∀ (i : Instr) (a b : Operand) (s t : State), (i = .ldr a b ∨ i = .inp a b) →
    s.fetches i → exec i s = .next t →
    s.sameFlags t ∧ t.sp = s.sp ∧ t.hp = s.hp ∧ s.onlyAt t (s.locOf a)

/-- 43 R131: str writes the word at A's value, then the location of the descriptor that then stands at `start`, and
pc; nothing else. -/
def Obligations.StrFrame : Prop :=
  ∀ (a b : Operand) (s t : State), exec (.str a b) s = .next t →
    s.sameFlags t ∧ t.sp = s.sp ∧ t.hp = s.hp ∧ t.trace = s.trace ∧
    (∀ r, (∀ va vb, s.readsA a va → s.readsB a b vb →
        (s.setWord va.toNat vb).locOf ((s.setWord va.toNat vb).operandAt s.start) ≠ .regLoc r) →
      t.getReg r = s.getReg r) ∧
    (∀ p, (∀ va, s.readsA a va → ¬ inWord va.toNat p) →
      (∀ va vb addr, s.readsA a va → s.readsB a b vb →
        (s.setWord va.toNat vb).locOf ((s.setWord va.toNat vb).operandAt s.start) = .memLoc addr →
        ¬ inWord addr.toNat p) →
      t.mem.get p = s.mem.get p)

/-- 44 R141: cons writes the 8 bytes at hp, hp, then the location of the descriptor that then stands at `start`, and
pc; nothing else. -/
def Obligations.ConsFrame : Prop :=
  ∀ (a b : Operand) (s t : State), exec (.cons a b) s = .next t →
    s.sameFlags t ∧ t.sp = s.sp ∧ (t.hp = s.hp ∨ t.hp = s.hp + 8) ∧ t.trace = s.trace ∧
    (∀ r, (∀ va vb s1, s.readsA a va → s.readsB a b vb →
        s1 = (s.setWord s.hp.toNat va).setWord (s.hp.toNat + 4) vb →
        s1.locOf (s1.operandAt s.start) ≠ .regLoc r) → t.getReg r = s.getReg r) ∧
    (∀ p, p < s.hp.toNat ∨ s.hp.toNat + 8 ≤ p →
      (∀ va vb s1 addr, s.readsA a va → s.readsB a b vb →
        s1 = (s.setWord s.hp.toNat va).setWord (s.hp.toNat + 4) vb →
        s1.locOf (s1.operandAt s.start) = .memLoc addr → ¬ inWord addr.toNat p) →
      t.mem.get p = s.mem.get p)

/-- 45 R150: push writes sp, the word below the old sp, and pc; nothing else. -/
def Obligations.PushFrame : Prop :=
  ∀ (a : Operand) (s t : State), exec (.push a) s = .next t →
    s.sameFlags t ∧ (t.sp = s.sp ∨ t.sp = s.sp - 4) ∧ t.hp = s.hp ∧ t.trace = s.trace ∧ t.x = s.x ∧
    ∀ p, ¬ inWord (s.sp - 4).toNat p → t.mem.get p = s.mem.get p

/-- 45 R151: pop writes sp, the location of A resolved with the raised sp, and pc; nothing else. -/
def Obligations.PopFrame : Prop :=
  ∀ (a : Operand) (s t : State), s.fetches (.pop a) → exec (.pop a) s = .next t →
    s.sameFlags t ∧ (t.sp = s.sp ∨ t.sp = s.sp + 4) ∧ t.hp = s.hp ∧ t.trace = s.trace ∧
    s.onlyAt t ((s.moveSp (s.sp + 4)).locOf a)
end

