-- ==== Sys2Proof/Laws/State.lean ====
section
/-! SUPPORT. One lemma per field per update of State, so that no proof unfolds a record update; then what the
derived readings (memTop, byteAt?, operandAt, readOperand, locOf) depend on. -/

namespace Sys2Proof.Machine

open Sys2Proof

variable (s : State)

/-! ## setReg -/

@[simp] theorem State.setReg_cfg (r : Nat) (v : Word) : (s.setReg r v).cfg = s.cfg := rfl
@[simp] theorem State.setReg_pc (r : Nat) (v : Word) : (s.setReg r v).pc = s.pc := rfl
@[simp] theorem State.setReg_sp (r : Nat) (v : Word) : (s.setReg r v).sp = s.sp := rfl
@[simp] theorem State.setReg_eqFlag (r : Nat) (v : Word) : (s.setReg r v).eqFlag = s.eqFlag := rfl
@[simp] theorem State.setReg_ltFlag (r : Nat) (v : Word) : (s.setReg r v).ltFlag = s.ltFlag := rfl
@[simp] theorem State.setReg_x (r : Nat) (v : Word) : (s.setReg r v).x = s.x.setIfInBounds r v := rfl
@[simp] theorem State.setReg_hp (r : Nat) (v : Word) : (s.setReg r v).hp = s.hp := rfl
@[simp] theorem State.setReg_mem (r : Nat) (v : Word) : (s.setReg r v).mem = s.mem := rfl
@[simp] theorem State.setReg_romSize (r : Nat) (v : Word) : (s.setReg r v).romSize = s.romSize := rfl
@[simp] theorem State.setReg_run (r : Nat) (v : Word) : (s.setReg r v).run = s.run := rfl
@[simp] theorem State.setReg_trace (r : Nat) (v : Word) : (s.setReg r v).trace = s.trace := rfl
@[simp] theorem State.setReg_draws (r : Nat) (v : Word) : (s.setReg r v).draws = s.draws := rfl

/-! ## setWord -/

@[simp] theorem State.setWord_cfg (a : Nat) (v : Word) : (s.setWord a v).cfg = s.cfg := rfl
@[simp] theorem State.setWord_pc (a : Nat) (v : Word) : (s.setWord a v).pc = s.pc := rfl
@[simp] theorem State.setWord_sp (a : Nat) (v : Word) : (s.setWord a v).sp = s.sp := rfl
@[simp] theorem State.setWord_eqFlag (a : Nat) (v : Word) : (s.setWord a v).eqFlag = s.eqFlag := rfl
@[simp] theorem State.setWord_ltFlag (a : Nat) (v : Word) : (s.setWord a v).ltFlag = s.ltFlag := rfl
@[simp] theorem State.setWord_x (a : Nat) (v : Word) : (s.setWord a v).x = s.x := rfl
@[simp] theorem State.setWord_hp (a : Nat) (v : Word) : (s.setWord a v).hp = s.hp := rfl
@[simp] theorem State.setWord_mem (a : Nat) (v : Word) : (s.setWord a v).mem = s.mem.putBytes a (bytesOf v) := rfl
@[simp] theorem State.setWord_romSize (a : Nat) (v : Word) : (s.setWord a v).romSize = s.romSize := rfl
@[simp] theorem State.setWord_run (a : Nat) (v : Word) : (s.setWord a v).run = s.run := rfl
@[simp] theorem State.setWord_trace (a : Nat) (v : Word) : (s.setWord a v).trace = s.trace := rfl
@[simp] theorem State.setWord_draws (a : Nat) (v : Word) : (s.setWord a v).draws = s.draws := rfl

/-! ## setFlags -/

@[simp] theorem State.setFlags_cfg (a b : Word) : (s.setFlags a b).cfg = s.cfg := rfl
@[simp] theorem State.setFlags_pc (a b : Word) : (s.setFlags a b).pc = s.pc := rfl
@[simp] theorem State.setFlags_sp (a b : Word) : (s.setFlags a b).sp = s.sp := rfl
@[simp] theorem State.setFlags_eqFlag (a b : Word) : (s.setFlags a b).eqFlag = decide (a = b) := rfl
@[simp] theorem State.setFlags_ltFlag (a b : Word) : (s.setFlags a b).ltFlag = decide (a < b) := rfl
@[simp] theorem State.setFlags_x (a b : Word) : (s.setFlags a b).x = s.x := rfl
@[simp] theorem State.setFlags_hp (a b : Word) : (s.setFlags a b).hp = s.hp := rfl
@[simp] theorem State.setFlags_mem (a b : Word) : (s.setFlags a b).mem = s.mem := rfl
@[simp] theorem State.setFlags_romSize (a b : Word) : (s.setFlags a b).romSize = s.romSize := rfl
@[simp] theorem State.setFlags_run (a b : Word) : (s.setFlags a b).run = s.run := rfl
@[simp] theorem State.setFlags_trace (a b : Word) : (s.setFlags a b).trace = s.trace := rfl
@[simp] theorem State.setFlags_draws (a b : Word) : (s.setFlags a b).draws = s.draws := rfl

/-! ## raiseFault -/

@[simp] theorem State.raiseFault_cfg (opAt : Word) (e : Raise) : (s.raiseFault opAt e).cfg = s.cfg := rfl
@[simp] theorem State.raiseFault_pc (opAt : Word) (e : Raise) : (s.raiseFault opAt e).pc = Config.pcAfterFault s.draws := rfl
@[simp] theorem State.raiseFault_sp (opAt : Word) (e : Raise) : (s.raiseFault opAt e).sp = s.sp := rfl
@[simp] theorem State.raiseFault_eqFlag (opAt : Word) (e : Raise) : (s.raiseFault opAt e).eqFlag = s.eqFlag := rfl
@[simp] theorem State.raiseFault_ltFlag (opAt : Word) (e : Raise) : (s.raiseFault opAt e).ltFlag = s.ltFlag := rfl
@[simp] theorem State.raiseFault_x (opAt : Word) (e : Raise) : (s.raiseFault opAt e).x = s.x := rfl
@[simp] theorem State.raiseFault_hp (opAt : Word) (e : Raise) : (s.raiseFault opAt e).hp = s.hp := rfl
@[simp] theorem State.raiseFault_mem (opAt : Word) (e : Raise) : (s.raiseFault opAt e).mem = s.mem := rfl
@[simp] theorem State.raiseFault_romSize (opAt : Word) (e : Raise) : (s.raiseFault opAt e).romSize = s.romSize := rfl
@[simp] theorem State.raiseFault_run (opAt : Word) (e : Raise) : (s.raiseFault opAt e).run = .fault e.kind opAt e.info := rfl
@[simp] theorem State.raiseFault_trace (opAt : Word) (e : Raise) : (s.raiseFault opAt e).trace = s.trace := rfl
@[simp] theorem State.raiseFault_draws (opAt : Word) (e : Raise) : (s.raiseFault opAt e).draws = s.draws + 1 := rfl

/-! ## ioWrite -/

@[simp] theorem State.ioWrite_cfg (p v : Word) : (s.ioWrite p v).cfg = s.cfg := rfl
@[simp] theorem State.ioWrite_pc (p v : Word) : (s.ioWrite p v).pc = s.pc := rfl
@[simp] theorem State.ioWrite_sp (p v : Word) : (s.ioWrite p v).sp = s.sp := rfl
@[simp] theorem State.ioWrite_eqFlag (p v : Word) : (s.ioWrite p v).eqFlag = s.eqFlag := rfl
@[simp] theorem State.ioWrite_ltFlag (p v : Word) : (s.ioWrite p v).ltFlag = s.ltFlag := rfl
@[simp] theorem State.ioWrite_x (p v : Word) : (s.ioWrite p v).x = s.x := rfl
@[simp] theorem State.ioWrite_hp (p v : Word) : (s.ioWrite p v).hp = s.hp := rfl
@[simp] theorem State.ioWrite_mem (p v : Word) : (s.ioWrite p v).mem = s.mem := rfl
@[simp] theorem State.ioWrite_romSize (p v : Word) : (s.ioWrite p v).romSize = s.romSize := rfl
@[simp] theorem State.ioWrite_run (p v : Word) : (s.ioWrite p v).run = s.run := rfl
@[simp] theorem State.ioWrite_trace (p v : Word) : (s.ioWrite p v).trace = s.trace ++ [.ioWrite p v] := rfl
@[simp] theorem State.ioWrite_draws (p v : Word) : (s.ioWrite p v).draws = s.draws := rfl

/-! ## cleanHalt -/

@[simp] theorem State.cleanHalt_cfg : (s.cleanHalt).cfg = s.cfg := rfl
@[simp] theorem State.cleanHalt_pc : (s.cleanHalt).pc = s.pc := rfl
@[simp] theorem State.cleanHalt_sp : (s.cleanHalt).sp = s.sp := rfl
@[simp] theorem State.cleanHalt_eqFlag : (s.cleanHalt).eqFlag = s.eqFlag := rfl
@[simp] theorem State.cleanHalt_ltFlag : (s.cleanHalt).ltFlag = s.ltFlag := rfl
@[simp] theorem State.cleanHalt_x : (s.cleanHalt).x = s.x := rfl
@[simp] theorem State.cleanHalt_hp : (s.cleanHalt).hp = s.hp := rfl
@[simp] theorem State.cleanHalt_mem : (s.cleanHalt).mem = s.mem := rfl
@[simp] theorem State.cleanHalt_romSize : (s.cleanHalt).romSize = s.romSize := rfl
@[simp] theorem State.cleanHalt_run : (s.cleanHalt).run = .success := rfl
@[simp] theorem State.cleanHalt_trace : (s.cleanHalt).trace = s.trace := rfl
@[simp] theorem State.cleanHalt_draws : (s.cleanHalt).draws = s.draws := rfl

/-! ## recordRead -/

@[simp] theorem State.recordRead_cfg (e : Event) : (s.recordRead e).cfg = s.cfg := rfl
@[simp] theorem State.recordRead_pc (e : Event) : (s.recordRead e).pc = s.pc := rfl
@[simp] theorem State.recordRead_sp (e : Event) : (s.recordRead e).sp = s.sp := rfl
@[simp] theorem State.recordRead_eqFlag (e : Event) : (s.recordRead e).eqFlag = s.eqFlag := rfl
@[simp] theorem State.recordRead_ltFlag (e : Event) : (s.recordRead e).ltFlag = s.ltFlag := rfl
@[simp] theorem State.recordRead_x (e : Event) : (s.recordRead e).x = s.x := rfl
@[simp] theorem State.recordRead_hp (e : Event) : (s.recordRead e).hp = s.hp := rfl
@[simp] theorem State.recordRead_mem (e : Event) : (s.recordRead e).mem = s.mem := rfl
@[simp] theorem State.recordRead_romSize (e : Event) : (s.recordRead e).romSize = s.romSize := rfl
@[simp] theorem State.recordRead_run (e : Event) : (s.recordRead e).run = s.run := rfl
@[simp] theorem State.recordRead_trace (e : Event) : (s.recordRead e).trace = s.trace ++ [e] := rfl
@[simp] theorem State.recordRead_draws (e : Event) : (s.recordRead e).draws = s.draws + 1 := rfl

/-! ## moveHp -/

@[simp] theorem State.moveHp_cfg (v : Word) : (s.moveHp v).cfg = s.cfg := rfl
@[simp] theorem State.moveHp_pc (v : Word) : (s.moveHp v).pc = s.pc := rfl
@[simp] theorem State.moveHp_sp (v : Word) : (s.moveHp v).sp = s.sp := rfl
@[simp] theorem State.moveHp_eqFlag (v : Word) : (s.moveHp v).eqFlag = s.eqFlag := rfl
@[simp] theorem State.moveHp_ltFlag (v : Word) : (s.moveHp v).ltFlag = s.ltFlag := rfl
@[simp] theorem State.moveHp_x (v : Word) : (s.moveHp v).x = s.x := rfl
@[simp] theorem State.moveHp_hp (v : Word) : (s.moveHp v).hp = v := rfl
@[simp] theorem State.moveHp_mem (v : Word) : (s.moveHp v).mem = s.mem := rfl
@[simp] theorem State.moveHp_romSize (v : Word) : (s.moveHp v).romSize = s.romSize := rfl
@[simp] theorem State.moveHp_run (v : Word) : (s.moveHp v).run = s.run := rfl
@[simp] theorem State.moveHp_trace (v : Word) : (s.moveHp v).trace = s.trace := rfl
@[simp] theorem State.moveHp_draws (v : Word) : (s.moveHp v).draws = s.draws := rfl

/-! ## moveSp -/

@[simp] theorem State.moveSp_cfg (v : Word) : (s.moveSp v).cfg = s.cfg := rfl
@[simp] theorem State.moveSp_pc (v : Word) : (s.moveSp v).pc = s.pc := rfl
@[simp] theorem State.moveSp_sp (v : Word) : (s.moveSp v).sp = v := rfl
@[simp] theorem State.moveSp_eqFlag (v : Word) : (s.moveSp v).eqFlag = s.eqFlag := rfl
@[simp] theorem State.moveSp_ltFlag (v : Word) : (s.moveSp v).ltFlag = s.ltFlag := rfl
@[simp] theorem State.moveSp_x (v : Word) : (s.moveSp v).x = s.x := rfl
@[simp] theorem State.moveSp_hp (v : Word) : (s.moveSp v).hp = s.hp := rfl
@[simp] theorem State.moveSp_mem (v : Word) : (s.moveSp v).mem = s.mem := rfl
@[simp] theorem State.moveSp_romSize (v : Word) : (s.moveSp v).romSize = s.romSize := rfl
@[simp] theorem State.moveSp_run (v : Word) : (s.moveSp v).run = s.run := rfl
@[simp] theorem State.moveSp_trace (v : Word) : (s.moveSp v).trace = s.trace := rfl
@[simp] theorem State.moveSp_draws (v : Word) : (s.moveSp v).draws = s.draws := rfl

/-! ## setPc -/

@[simp] theorem State.setPc_cfg (p : Word) : (s.setPc p).cfg = s.cfg := rfl
@[simp] theorem State.setPc_pc (p : Word) : (s.setPc p).pc = p := rfl
@[simp] theorem State.setPc_sp (p : Word) : (s.setPc p).sp = s.sp := rfl
@[simp] theorem State.setPc_eqFlag (p : Word) : (s.setPc p).eqFlag = s.eqFlag := rfl
@[simp] theorem State.setPc_ltFlag (p : Word) : (s.setPc p).ltFlag = s.ltFlag := rfl
@[simp] theorem State.setPc_x (p : Word) : (s.setPc p).x = s.x := rfl
@[simp] theorem State.setPc_hp (p : Word) : (s.setPc p).hp = s.hp := rfl
@[simp] theorem State.setPc_mem (p : Word) : (s.setPc p).mem = s.mem := rfl
@[simp] theorem State.setPc_romSize (p : Word) : (s.setPc p).romSize = s.romSize := rfl
@[simp] theorem State.setPc_run (p : Word) : (s.setPc p).run = s.run := rfl
@[simp] theorem State.setPc_trace (p : Word) : (s.setPc p).trace = s.trace := rfl
@[simp] theorem State.setPc_draws (p : Word) : (s.setPc p).draws = s.draws := rfl

/-! ## Readings that depend on few fields -/

theorem State.memTop_congr {s t : State} (h : t.cfg = s.cfg) : t.memTop = s.memTop := by
  simp [State.memTop, h]

theorem State.byteAt_congr {s t : State} (hc : t.cfg = s.cfg) (hm : t.mem = s.mem) :
    t.byteAt? = s.byteAt? := by
  funext a; simp only [State.byteAt?, State.memTop_congr hc, hm]

theorem State.operandAt_congr {s t : State} (hc : t.cfg = s.cfg) (hm : t.mem = s.mem) (a : Nat) :
    t.operandAt a = s.operandAt a := by
  simp [State.operandAt, State.byteAt_congr hc hm]

theorem State.wordAt_congr {s t : State} (hm : t.mem = s.mem) (a : Nat) : t.wordAt a = s.wordAt a := by
  simp [State.wordAt, hm]

theorem State.memRead4_congr {s t : State} (hc : t.cfg = s.cfg) (hm : t.mem = s.mem) (a : Nat) :
    t.memRead4 a = s.memRead4 a := by
  simp only [State.memRead4, State.memTop_congr hc, State.wordAt_congr hm]

/-- The value of an operand depends on the parameters, Memory, the slots and sp only. -/
theorem State.readOperand_congr {s t : State} (hc : t.cfg = s.cfg) (hm : t.mem = s.mem) (hx : t.x = s.x)
    (hs : t.sp = s.sp) (o : Operand) (a : Nat) : t.readOperand o a = s.readOperand o a := by
  cases o <;> simp [State.readOperand, State.memRead4_congr hc hm, State.getReg, State.stkAddr, hx, hs]

theorem State.locOf_congr {s t : State} (hs : t.sp = s.sp) (o : Operand) : t.locOf o = s.locOf o := by
  cases o <;> simp [State.locOf, State.stkAddr, hs]

@[simp] theorem State.memTop_setReg (r : Nat) (v : Word) : (s.setReg r v).memTop = s.memTop := rfl
@[simp] theorem State.memTop_setWord (a : Nat) (v : Word) : (s.setWord a v).memTop = s.memTop := rfl
@[simp] theorem State.memTop_setFlags (a b : Word) : (s.setFlags a b).memTop = s.memTop := rfl
@[simp] theorem State.memTop_raiseFault (p : Word) (e : Raise) : (s.raiseFault p e).memTop = s.memTop := rfl
@[simp] theorem State.memTop_ioWrite (p v : Word) : (s.ioWrite p v).memTop = s.memTop := rfl

@[simp] theorem State.memTop_setPc (p : Word) : (s.setPc p).memTop = s.memTop := rfl
@[simp] theorem State.memTop_recordRead (e : Event) : (s.recordRead e).memTop = s.memTop := rfl
@[simp] theorem State.memTop_moveHp (v : Word) : (s.moveHp v).memTop = s.memTop := rfl
@[simp] theorem State.memTop_moveSp (v : Word) : (s.moveSp v).memTop = s.memTop := rfl

/-! ## putAt -/

@[simp] theorem State.putAt_cfg (o : Operand) (v : Word) : (s.putAt o v).cfg = s.cfg := by
  cases o <;> rfl
@[simp] theorem State.putAt_pc (o : Operand) (v : Word) : (s.putAt o v).pc = s.pc := by
  cases o <;> rfl
@[simp] theorem State.putAt_sp (o : Operand) (v : Word) : (s.putAt o v).sp = s.sp := by
  cases o <;> rfl
@[simp] theorem State.putAt_eqFlag (o : Operand) (v : Word) : (s.putAt o v).eqFlag = s.eqFlag := by
  cases o <;> rfl
@[simp] theorem State.putAt_ltFlag (o : Operand) (v : Word) : (s.putAt o v).ltFlag = s.ltFlag := by
  cases o <;> rfl
@[simp] theorem State.putAt_hp (o : Operand) (v : Word) : (s.putAt o v).hp = s.hp := by
  cases o <;> rfl
@[simp] theorem State.putAt_romSize (o : Operand) (v : Word) : (s.putAt o v).romSize = s.romSize := by
  cases o <;> rfl
@[simp] theorem State.putAt_run (o : Operand) (v : Word) : (s.putAt o v).run = s.run := by
  cases o <;> rfl
@[simp] theorem State.putAt_trace (o : Operand) (v : Word) : (s.putAt o v).trace = s.trace := by
  cases o <;> rfl
@[simp] theorem State.putAt_draws (o : Operand) (v : Word) : (s.putAt o v).draws = s.draws := by
  cases o <;> rfl

end Sys2Proof.Machine
end

