-- ==== Sys2Proof/Laws/Memory.lean ====
section
/-! SUPPORT. Memory: a read after a write, other places left alone, the canonical form kept; byte order. -/

namespace Sys2Proof.Machine

open Sys2Proof

/-! ## One byte -/

theorem Memory.get_remove_same (m : Memory) (a : Nat) : (m.remove a).get a = unlistedByte := by
  induction m with
  | nil => rfl
  | cons c m ih =>
    obtain ⟨k, b⟩ := c
    by_cases h : k = a
    · simpa [Memory.remove, h] using ih
    · simpa [Memory.remove, h, Memory.get] using ih

theorem Memory.get_remove_other (m : Memory) {a p : Nat} (h : p ≠ a) : (m.remove a).get p = m.get p := by
  induction m with
  | nil => rfl
  | cons c m ih =>
    obtain ⟨k, b⟩ := c
    by_cases hk : k = a
    · subst hk
      simpa [Memory.remove, Memory.get, h.symm] using ih
    · by_cases hp : k = p
      · subst hp
        simp [Memory.remove, h, Memory.get]
      · simpa [Memory.remove, hk, Memory.get, hp] using ih

theorem Memory.get_insert_other (m : Memory) {a p : Nat} (v : Byte) (h : p ≠ a) :
    (m.insert a v).get p = m.get p := by
  induction m with
  | nil => simp [Memory.insert, Memory.get, h.symm]
  | cons c m ih =>
    obtain ⟨k, b⟩ := c
    by_cases hk : a < k
    · simp [Memory.insert, hk, Memory.get, h.symm]
    · rw [Memory.insert, if_neg hk, Memory.get, Memory.get, ih]

theorem Memory.get_insert_same (m : Memory) (a : Nat) (v : Byte) (h : ∀ c ∈ m, c.1 ≠ a) :
    (m.insert a v).get a = v := by
  induction m with
  | nil => simp [Memory.insert, Memory.get]
  | cons c m ih =>
    obtain ⟨k, b⟩ := c
    have hk : k ≠ a := h (k, b) (by simp)
    by_cases hlt : a < k
    · simp [Memory.insert, hlt, Memory.get]
    · simp [Memory.insert, hlt, Memory.get, hk, ih fun c hc => h c (by simp [hc])]

theorem Memory.remove_not_mem (m : Memory) (a : Nat) : ∀ c ∈ m.remove a, c.1 ≠ a := by
  simp [Memory.remove]

@[simp] theorem Memory.get_put_same (m : Memory) (a : Nat) (v : Byte) : (m.put a v).get a = v := by
  unfold Memory.put
  split
  · rename_i h; rw [h]; exact m.get_remove_same a
  · exact Memory.get_insert_same _ a v (m.remove_not_mem a)

theorem Memory.get_put_other (m : Memory) {a p : Nat} (v : Byte) (h : p ≠ a) : (m.put a v).get p = m.get p := by
  unfold Memory.put
  split
  · exact m.get_remove_other h
  · rw [Memory.get_insert_other _ v h, m.get_remove_other h]

/-! ## The canonical form -/

theorem Memory.mem_remove {m : Memory} {a : Nat} {c : Host.Cell} (h : c ∈ m.remove a) : c ∈ m :=
  (List.mem_filter.mp h).1

theorem Memory.mem_insert {m : Memory} {a : Nat} {v : Byte} {c : Host.Cell} (h : c ∈ m.insert a v) :
    c = (a, v) ∨ c ∈ m := by
  induction m with
  | nil => simpa [Memory.insert] using h
  | cons d m ih =>
    obtain ⟨k, b⟩ := d
    by_cases hk : a < k
    · simpa [Memory.insert, hk] using h
    · rw [Memory.insert, if_neg hk, List.mem_cons] at h
      rcases h with h | h
      · exact .inr (by simp [h])
      · rcases ih h with h | h
        · exact .inl h
        · exact .inr (by simp [h])

/-- A write lists no address but the one written. -/
theorem Memory.mem_put {m : Memory} {a : Nat} {v : Byte} {c : Host.Cell} (h : c ∈ m.put a v) :
    c = (a, v) ∨ c ∈ m := by
  unfold Memory.put at h
  split at h
  · exact .inr (Memory.mem_remove h)
  · exact (Memory.mem_insert h).imp_right Memory.mem_remove

theorem Memory.wf_remove {m : Memory} (h : m.wf) (a : Nat) : (m.remove a).wf :=
  ⟨h.1.filter _, fun c hc => h.2 c (Memory.mem_remove hc)⟩

theorem Memory.wf_insert {m : Memory} (h : m.wf) {a : Nat} {v : Byte} (hn : ∀ c ∈ m, c.1 ≠ a)
    (hv : v ≠ unlistedByte) : (m.insert a v).wf := by
  refine ⟨?_, fun c hc => ?_⟩
  · obtain ⟨hp, -⟩ := h
    induction m with
    | nil => simp [Memory.insert]
    | cons d m ih =>
      obtain ⟨k, b⟩ := d
      have hka : k ≠ a := hn (k, b) (by simp)
      rw [List.pairwise_cons] at hp
      by_cases hk : a < k
      · rw [Memory.insert, if_pos hk, List.pairwise_cons, List.pairwise_cons]
        refine ⟨fun c hc => ?_, hp⟩
        rcases List.mem_cons.mp hc with rfl | hc
        · exact hk
        · exact hk.trans (hp.1 c hc)
      · rw [Memory.insert, if_neg hk, List.pairwise_cons]
        refine ⟨fun c hc => ?_, ih (fun c hc => hn c (by simp [hc])) hp.2⟩
        rcases Memory.mem_insert hc with rfl | hc
        · show k < a; omega
        · exact hp.1 c hc
  · rcases Memory.mem_insert hc with rfl | hc
    · exact hv
    · exact h.2 c hc

/-- Every write keeps the canonical form. -/
theorem Memory.wf_put {m : Memory} (h : m.wf) (a : Nat) (v : Byte) : (m.put a v).wf := by
  unfold Memory.put
  split
  · exact Memory.wf_remove h a
  · exact Memory.wf_insert (Memory.wf_remove h a) (m.remove_not_mem a) ‹_›

/-- Reset's Memory is in canonical form. -/
theorem State.reset_mem_wf : State.reset.mem.wf := by decide

theorem Memory.wf_putBytes {m : Memory} (h : m.wf) (a : Nat) (bs : List Byte) : (m.putBytes a bs).wf := by
  induction bs generalizing m a with
  | nil => exact h
  | cons b bs ih => exact ih (Memory.wf_put h a b) (a + 1)

theorem Memory.mem_putBytes {m : Memory} {a : Nat} {bs : List Byte} {c : Host.Cell}
    (h : c ∈ m.putBytes a bs) : (a ≤ c.1 ∧ c.1 < a + bs.length) ∨ c ∈ m := by
  induction bs generalizing m a with
  | nil => exact .inr h
  | cons b bs ih =>
    rcases ih h with h | h
    · left; simp only [List.length_cons]; omega
    · rcases Memory.mem_put h with rfl | h
      · left; simp
      · exact .inr h

/-! ## A word -/

theorem Memory.get_putBytes_other (m : Memory) {a p : Nat} (bs : List Byte) (h : p < a ∨ a + bs.length ≤ p) :
    (m.putBytes a bs).get p = m.get p := by
  induction bs generalizing m a with
  | nil => rfl
  | cons b bs ih =>
    simp only [List.length_cons] at h
    rw [Memory.putBytes, ih _ (by omega), Memory.get_put_other _ _ (by omega)]

theorem Memory.get_putBytes_mem (m : Memory) (a : Nat) (bs : List Byte) (k : Nat) (h : k < bs.length) :
    (m.putBytes a bs).get (a + k) = bs[k] := by
  induction bs generalizing m a k with
  | nil => simp at h
  | cons b bs ih =>
    cases k with
    | zero => rw [Memory.putBytes, Memory.get_putBytes_other _ _ (by omega)]; simp
    | succ k =>
      have := ih (m.put a b) (a + 1) k (by simpa using h)
      rw [show a + (k + 1) = a + 1 + k by omega]
      simpa [Memory.putBytes] using this

/-- The four bytes of a word make the word (20 R30). -/
@[simp] theorem wordOf_bytes (v : Word) : wordOf (byteOf v 0) (byteOf v 1) (byteOf v 2) (byteOf v 3) = v := by
  simp only [wordOf, byteOf]
  rw [BitVec.extractLsb'_append_extractLsb'_eq_extractLsb' (by omega),
    BitVec.extractLsb'_append_extractLsb'_eq_extractLsb' (by omega),
    BitVec.extractLsb'_append_extractLsb'_eq_extractLsb' (by omega)]
  exact BitVec.extractLsb'_eq_self

/-- A word made of four bytes has those bytes (20 R30). -/
@[simp] theorem bytesOf_wordOf (b0 b1 b2 b3 : Byte) : bytesOf (wordOf b0 b1 b2 b3) = [b0, b1, b2, b3] := by
  have e : ∀ (k : Nat) (b : Byte), (∀ i, i < 8 → (wordOf b0 b1 b2 b3).getLsbD (8 * k + i) = b.getLsbD i) →
      byteOf (wordOf b0 b1 b2 b3) k = b := by
    intro k b h
    apply BitVec.eq_of_getLsbD_eq
    intro i hi
    simp only [byteOf, BitVec.getLsbD_extractLsb', hi, decide_true, Bool.true_and, h i hi]
  simp only [bytesOf]
  rw [e 0 b0, e 1 b1, e 2 b2, e 3 b3] <;> intro i hi <;> simp only [wordOf, BitVec.getLsbD_append]
  · rw [if_neg (by omega), if_neg (by omega), if_neg (by omega)]; congr 1; omega
  · rw [if_neg (by omega), if_neg (by omega), if_pos (by omega)]; congr 1; omega
  · rw [if_neg (by omega), if_pos (by omega)]; congr 1; omega
  · rw [if_pos (by omega)]; congr 1; omega

@[simp] theorem bytesOf_length (v : Word) : (bytesOf v).length = 4 := rfl

/-- What was stored at `a` is read at `a` (20 R30, R51). -/
@[simp] theorem State.wordAt_setWord (s : State) (a : Nat) (v : Word) : (s.setWord a v).wordAt a = v := by
  have h := fun k (hk : k < 4) => Memory.get_putBytes_mem s.mem a (bytesOf v) k (by simpa using hk)
  have h0 := h 0 (by omega); have h1 := h 1 (by omega); have h2 := h 2 (by omega); have h3 := h 3 (by omega)
  simp only [bytesOf, Nat.add_zero, List.getElem_cons_zero, List.getElem_cons_succ] at h0 h1 h2 h3
  simp only [State.wordAt, State.setWord, bytesOf, h0, h1, h2, h3, wordOf_bytes]

/-- A store leaves every byte outside its four alone. -/
theorem State.get_setWord_other (s : State) {a p : Nat} (v : Word) (h : ¬ inWord a p) :
    (s.setWord a v).mem.get p = s.mem.get p := by
  refine Memory.get_putBytes_other _ _ ?_
  simp only [bytesOf_length]
  unfold inWord at h
  omega

theorem State.byteAt_setWord_other (s : State) {a p : Nat} (v : Word) (h : ¬ inWord a p) :
    (s.setWord a v).byteAt? p = s.byteAt? p := by
  simp only [State.byteAt?, State.memTop_setWord, s.get_setWord_other v h]

theorem State.wordAt_setWord_other (s : State) {a p : Nat} (v : Word) (h : a + 4 ≤ p ∨ p + 4 ≤ a) :
    (s.setWord a v).wordAt p = s.wordAt p := by
  simp only [State.wordAt]
  rw [s.get_setWord_other v (by unfold inWord; omega), s.get_setWord_other v (by unfold inWord; omega),
    s.get_setWord_other v (by unfold inWord; omega), s.get_setWord_other v (by unfold inWord; omega)]

/-! ## Register slots -/

@[simp] theorem State.getReg_setReg_same (s : State) {r : Nat} (v : Word) (h : r < nreg) :
    (s.setReg r v).getReg r = v := by
  have h8 : r < 8 := h
  simp [State.getReg, State.setReg, h8]

theorem State.getReg_setReg_other (s : State) {r q : Nat} (v : Word) (h : q ≠ r) :
    (s.setReg r v).getReg q = s.getReg q := by
  simp [State.getReg, State.setReg, h.symm]

end Sys2Proof.Machine
end

