-- ==== Sys2Proof/Laws/Operands.lean ====
section
/-! SUPPORT. What decoding depends on, the operands of a fetched instruction, and one lemma per shared operation
of the operand subsystem: what a write-back does, and how each template ends. -/

namespace Sys2Proof.Machine

open Sys2Proof

/-! ## Decoding -/

theorem shapeOf_mem {op : Byte} {f : Operand → Operand → Instr} (h : shapeOf op = some f) :
    f ∈ shapes ∧ opcodeByte (f .noTag .noTag) = op :=
  ⟨List.mem_of_find?_eq_some h, by simpa using List.find?_some h⟩

theorem operandA_of_mem_shapes {f : Operand → Operand → Instr} (h : f ∈ shapes) (a b : Operand) :
    (f a b).operandA = a := by
  simp only [shapes, List.mem_cons, List.not_mem_nil, or_false] at h
  rcases h with h | h | h | h | h | h | h | h | h | h | h | h | h | h | h | h | h | h | h | h | h | h | h | h <;>
    (subst h; rfl)

theorem operandB_of_mem_shapes {f : Operand → Operand → Instr} (h : f ∈ shapes) (a b : Operand) :
    (f a b).operandB? = some b ∨ (f a b).operandB? = none := by
  simp only [shapes, List.mem_cons, List.not_mem_nil, or_false] at h
  rcases h with h | h | h | h | h | h | h | h | h | h | h | h | h | h | h | h | h | h | h | h | h | h | h | h <;>
    (subst h; first | exact .inl rfl | exact .inr rfl)

/-- The opcode byte of an instruction is its shape's, whatever the operands (30 R61). -/
theorem opcodeByte_of_mem_shapes {f : Operand → Operand → Instr} (h : f ∈ shapes) (a b : Operand) :
    opcodeByte (f a b) = opcodeByte (f .noTag .noTag) := by
  simp only [shapes, List.mem_cons, List.not_mem_nil, or_false] at h
  rcases h with h | h | h | h | h | h | h | h | h | h | h | h | h | h | h | h | h | h | h | h | h | h | h | h <;>
    (subst h; rfl)

/-- An opcode byte outside 0x01 to 0x18 selects no shape (30 R67). -/
theorem shapeOf_unknown {op : Byte} (h : op.toNat = 0 ∨ 0x18 < op.toNat) : shapeOf op = none := by
  revert op; decide

/-- Operand A of the instruction decoded at `p` is the descriptor at `p + 1`. -/
theorem operandA_of_decodeAt {rd : Nat → Option Byte} {p : Nat} {i : Instr} (h : decodeAt rd p = .ok i) :
    i.operandA = decodeOperand rd (p + 1) := by
  unfold decodeAt at h
  split at h
  · cases h
  · split at h
    · cases h
    · rename_i f hf
      cases h
      exact operandA_of_mem_shapes (shapeOf_mem hf).1 _ _

/-- Operand B of the instruction decoded at `p`, if it has one, is the descriptor after operand A. -/
theorem operandB_of_decodeAt {rd : Nat → Option Byte} {p : Nat} {i : Instr} {b : Operand}
    (h : decodeAt rd p = .ok i) (hb : i.operandB? = some b) :
    b = decodeOperand rd (p + 1 + i.operandA.size) := by
  rw [operandA_of_decodeAt h]
  unfold decodeAt at h
  split at h
  · cases h
  · split at h
    · cases h
    · rename_i f hf
      cases h
      rcases operandB_of_mem_shapes (shapeOf_mem hf).1 _ _ with h | h
      · rw [h] at hb; exact (Option.some.inj hb).symm
      · rw [h] at hb; cases hb

/-- The descriptor at `start` is operand A of the instruction at pc. -/
theorem State.fetches.operandA {s : State} {i : Instr} (h : s.fetches i) : s.operandAt s.start = i.operandA :=
  (operandA_of_decodeAt h).symm

theorem State.fetches.operandB {s : State} {i : Instr} {b : Operand} (h : s.fetches i)
    (hb : i.operandB? = some b) : s.operandAt (s.start + i.operandA.size) = b :=
  (operandB_of_decodeAt h hb).symm

theorem decodeOperand_imm8 {rd : Nat → Option Byte} {p : Nat} {v : Byte} (h : rd p = some tagImm8)
    (hv : rd (p + 1) = some v) : decodeOperand rd p = .imm8 v := by
  simp only [decodeOperand, h, hv, Option.map_some, Option.getD_some, if_true]

theorem decodeOperand_imm32 {rd : Nat → Option Byte} {p : Nat} {v : Word} (h : rd p = some tagImm32)
    (hv : wordAt? rd (p + 1) = some v) : decodeOperand rd p = .imm32 v := by
  simp only [decodeOperand, h, hv, Option.map_some, Option.getD_some]; rfl

theorem decodeOperand_reg {rd : Nat → Option Byte} {p : Nat} {r : Byte} (h : rd p = some tagReg)
    (hv : rd (p + 1) = some r) : decodeOperand rd p = .reg r := by
  simp only [decodeOperand, h, hv, Option.map_some, Option.getD_some]; rfl

theorem decodeOperand_mem {rd : Nat → Option Byte} {p : Nat} {v : Word} (h : rd p = some tagMem)
    (hv : wordAt? rd (p + 1) = some v) : decodeOperand rd p = .mem v := by
  simp only [decodeOperand, h, hv, Option.map_some, Option.getD_some]; rfl

theorem decodeOperand_stk {rd : Nat → Option Byte} {p : Nat} {k : Byte} (h : rd p = some tagStk)
    (hv : rd (p + 1) = some k) : decodeOperand rd p = .stk k := by
  simp only [decodeOperand, h, hv, Option.map_some, Option.getD_some]; rfl

/-- What a descriptor of one of the five kinds says of the bytes it was decoded from. -/
theorem decodeOperand_inv (rd : Nat → Option Byte) (p : Nat) :
    match decodeOperand rd p with
    | .imm8 v => rd p = some tagImm8 ∧ rd (p + 1) = some v
    | .imm32 v => rd p = some tagImm32 ∧ wordAt? rd (p + 1) = some v
    | .reg r => rd p = some tagReg ∧ rd (p + 1) = some r
    | .mem a => rd p = some tagMem ∧ wordAt? rd (p + 1) = some a
    | .stk k => rd p = some tagStk ∧ rd (p + 1) = some k
    | .reserved t => rd p = some t
    | .noTag => rd p = none
    | .noPayload => ∃ t, rd p = some t := by
  cases hp : rd p with
  | none => simp [decodeOperand, hp]
  | some tag =>
    by_cases h1 : tag = tagImm8
    · subst h1
      cases hq : rd (p + 1) with
      | none =>
        have : decodeOperand rd p = .noPayload := by simp only [decodeOperand, hp, hq]; rfl
        rw [this]; exact ⟨_, rfl⟩
      | some v => rw [decodeOperand_imm8 hp hq]; exact ⟨rfl, rfl⟩
    by_cases h2 : tag = tagImm32
    · subst h2
      cases hq : wordAt? rd (p + 1) with
      | none =>
        have : decodeOperand rd p = .noPayload := by simp only [decodeOperand, hp, hq]; rfl
        rw [this]; exact ⟨_, rfl⟩
      | some v => rw [decodeOperand_imm32 hp hq]; exact ⟨rfl, rfl⟩
    by_cases h3 : tag = tagReg
    · subst h3
      cases hq : rd (p + 1) with
      | none =>
        have : decodeOperand rd p = .noPayload := by simp only [decodeOperand, hp, hq]; rfl
        rw [this]; exact ⟨_, rfl⟩
      | some v => rw [decodeOperand_reg hp hq]; exact ⟨rfl, rfl⟩
    by_cases h4 : tag = tagMem
    · subst h4
      cases hq : wordAt? rd (p + 1) with
      | none =>
        have : decodeOperand rd p = .noPayload := by simp only [decodeOperand, hp, hq]; rfl
        rw [this]; exact ⟨_, rfl⟩
      | some v => rw [decodeOperand_mem hp hq]; exact ⟨rfl, rfl⟩
    by_cases h5 : tag = tagStk
    · subst h5
      cases hq : rd (p + 1) with
      | none =>
        have : decodeOperand rd p = .noPayload := by simp only [decodeOperand, hp, hq]; rfl
        rw [this]; exact ⟨_, rfl⟩
      | some v => rw [decodeOperand_stk hp hq]; exact ⟨rfl, rfl⟩
    have : decodeOperand rd p = .reserved tag := by
      simp only [decodeOperand, hp, h1, h2, h3, h4, h5, if_false]
    rw [this]

theorem wordAt?_congr {rd rd' : Nat → Option Byte} {p : Nat} (h : ∀ k, k < 5 → rd' (p + k) = rd (p + k)) :
    wordAt? rd' (p + 1) = wordAt? rd (p + 1) := by
  have h1 := h 1 (by omega); have h2 := h 2 (by omega); have h3 := h 3 (by omega); have h4 := h 4 (by omega)
  simp only [wordAt?, Nat.add_assoc, Nat.reduceAdd, h1, h2, h3, h4]

/-- A well-formed descriptor is decoded from its own bytes alone. -/
theorem decodeOperand_congr {rd rd' : Nat → Option Byte} {p : Nat} (hw : (decodeOperand rd p).wf = true)
    (h : ∀ k, k < (decodeOperand rd p).size → rd' (p + k) = rd (p + k)) :
    decodeOperand rd' p = decodeOperand rd p := by
  have hi := decodeOperand_inv rd p
  revert hw h hi
  generalize decodeOperand rd p = o
  intro hw h hi
  cases o with
  | imm8 v => exact decodeOperand_imm8 (by rw [← hi.1]; exact h 0 (by simp [Operand.size])) (by rw [← hi.2]; exact h 1 (by simp [Operand.size]))
  | imm32 v => exact decodeOperand_imm32 (by rw [← hi.1]; exact h 0 (by simp [Operand.size])) (by rw [← hi.2]; exact wordAt?_congr h)
  | reg r => exact decodeOperand_reg (by rw [← hi.1]; exact h 0 (by simp [Operand.size])) (by rw [← hi.2]; exact h 1 (by simp [Operand.size]))
  | mem a => exact decodeOperand_mem (by rw [← hi.1]; exact h 0 (by simp [Operand.size])) (by rw [← hi.2]; exact wordAt?_congr h)
  | stk k => exact decodeOperand_stk (by rw [← hi.1]; exact h 0 (by simp [Operand.size])) (by rw [← hi.2]; exact h 1 (by simp [Operand.size]))
  | reserved t => simp [Operand.wf] at hw
  | noTag => simp [Operand.wf] at hw
  | noPayload => simp [Operand.wf] at hw

/-! ## Descriptors and their bytes -/

theorem encodeOperand_length {o : Operand} (h : o.wf = true) : (encodeOperand o).length = o.size := by
  cases o <;> simp_all [Operand.wf, encodeOperand, Operand.size]

theorem wordAt?_bytes {rd : Nat → Option Byte} {q : Nat} {t : Byte} {v : Word}
    (h : ∀ k, k < 5 → rd (q + k) = (t :: bytesOf v)[k]?) : rd q = some t ∧ wordAt? rd (q + 1) = some v := by
  have h0 := h 0 (by omega)
  have h1 := h 1 (by omega); have h2 := h 2 (by omega); have h3 := h 3 (by omega); have h4 := h 4 (by omega)
  simp [bytesOf] at h0 h1 h2 h3 h4
  simp [wordAt?, Nat.add_assoc, h0, h1, h2, h3, h4]

/-- Wherever the bytes of a well-formed descriptor lie, it is decoded back. -/
theorem decodeOperand_encode {rd : Nat → Option Byte} {q : Nat} {o : Operand} (hw : o.wf = true)
    (h : ∀ k, k < (encodeOperand o).length → rd (q + k) = (encodeOperand o)[k]?) : decodeOperand rd q = o := by
  cases o with
  | imm8 v => exact decodeOperand_imm8 (by simpa [encodeOperand] using h 0 (by simp [encodeOperand])) (by simpa [encodeOperand] using h 1 (by simp [encodeOperand]))
  | reg v => exact decodeOperand_reg (by simpa [encodeOperand] using h 0 (by simp [encodeOperand])) (by simpa [encodeOperand] using h 1 (by simp [encodeOperand]))
  | stk v => exact decodeOperand_stk (by simpa [encodeOperand] using h 0 (by simp [encodeOperand])) (by simpa [encodeOperand] using h 1 (by simp [encodeOperand]))
  | imm32 v =>
    have := wordAt?_bytes (t := tagImm32) (v := v) (fun k hk => h k (by simpa [encodeOperand] using hk))
    exact decodeOperand_imm32 this.1 this.2
  | mem v =>
    have := wordAt?_bytes (t := tagMem) (v := v) (fun k hk => h k (by simpa [encodeOperand] using hk))
    exact decodeOperand_mem this.1 this.2
  | reserved t | noTag | noPayload => simp [Operand.wf] at hw

theorem bytes_of_wordAt? {rd : Nat → Option Byte} {q : Nat} {t : Byte} {v : Word} (ht : rd q = some t)
    (hv : wordAt? rd (q + 1) = some v) : ∀ k, k < 5 → rd (q + k) = (t :: bytesOf v)[k]? := by
  intro k hk
  unfold wordAt? at hv
  split at hv
  · rename_i b0 b1 b2 b3 h0 h1 h2 h3
    cases hv
    rw [bytesOf_wordOf]
    match k, hk with
    | 0, _ => simpa using ht
    | 1, _ => simpa using h0
    | 2, _ => simpa [Nat.add_assoc] using h1
    | 3, _ => simpa [Nat.add_assoc] using h2
    | 4, _ => simpa [Nat.add_assoc] using h3
  · cases hv

/-- The bytes a well-formed descriptor was decoded from are its encoding. -/
theorem encode_decodeOperand {rd : Nat → Option Byte} {q : Nat} (hw : (decodeOperand rd q).wf = true) :
    ∀ k, k < (encodeOperand (decodeOperand rd q)).length → rd (q + k) = (encodeOperand (decodeOperand rd q))[k]? := by
  have hi := decodeOperand_inv rd q
  revert hw hi
  generalize decodeOperand rd q = o
  intro hw hi
  have two : ∀ (t v : Byte), rd q = some t → rd (q + 1) = some v → ∀ k, k < 2 → rd (q + k) = [t, v][k]? := by
    intro t v h0 h1 k hk
    match k, hk with
    | 0, _ => simpa using h0
    | 1, _ => simpa using h1
  cases o with
  | imm8 v | reg v | stk v => exact two _ _ hi.1 hi.2
  | imm32 v | mem v => exact bytes_of_wordAt? hi.1 hi.2
  | reserved t | noTag | noPayload => simp [Operand.wf] at hw

/-! ## Operand values -/

/-- The word at `a` as the decoder reads it from Memory: all four bytes or none (20 R36). -/
theorem State.wordAt?_byteAt (s : State) (a : Nat) :
    wordAt? s.byteAt? a = if s.memTop < a + 4 then none else some (s.wordAt a) := by
  unfold wordAt?
  by_cases h : s.memTop < a + 4
  · rw [if_pos h]
    have : s.byteAt? (a + 3) = none := if_neg (by omega)
    split
    · simp_all
    · rfl
  · have hb : ∀ k, k < 4 → s.byteAt? (a + k) = some (s.mem.get (a + k)) := fun k hk => if_pos (by omega)
    rw [if_neg h, hb 1 (by omega), hb 2 (by omega), hb 3 (by omega)]
    have := hb 0 (by omega)
    rw [Nat.add_zero] at this
    rw [this]
    rfl

/-- The address of a STK descriptor as a number: (sp + 4k) mod 2^32 (40 R86). -/
theorem State.stkAddr_toNat (s : State) (k : Byte) :
    (s.stkAddr k).toNat = (s.sp.toNat + 4 * k.toNat) % 2 ^ 32 := by
  simp [State.stkAddr, BitVec.toNat_add, BitVec.toNat_mul]

/-- What decodes without a fault is one of the five kinds. -/
theorem State.readOperand_wf {s : State} {o : Operand} {p : Nat} {v : Word} (h : s.readOperand o p = .ok v) :
    o.wf = true := by
  cases o with
  | reg r =>
    simp only [State.readOperand] at h
    split at h
    · rename_i hr; exact decide_eq_true hr
    · cases h
  | imm8 _ | imm32 _ | mem _ | stk _ => rfl
  | reserved _ | noTag | noPayload => simp [State.readOperand] at h

theorem State.memRead4_ok {s : State} {a : Nat} {v : Word} :
    s.memRead4 a = .ok v ↔ a + 4 ≤ s.memTop ∧ v = s.wordAt a := by
  unfold State.memRead4
  split
  · simp; omega
  · simp only [Except.ok.injEq]
    constructor
    · rintro rfl; exact ⟨by omega, rfl⟩
    · rintro ⟨-, rfl⟩; rfl

theorem State.memWrite4_ok {s t : State} {a : Nat} {v : Word} :
    s.memWrite4 a v = .ok t ↔ a + 4 ≤ s.memTop ∧ t = s.setWord a v := by
  unfold State.memWrite4
  split
  · simp; omega
  · simp only [Except.ok.injEq]
    constructor
    · rintro rfl; exact ⟨by omega, rfl⟩
    · rintro ⟨-, rfl⟩; rfl

theorem State.memWrite4_eq {s : State} {a : Nat} {v : Word} (h : a + 4 ≤ s.memTop) :
    s.memWrite4 a v = .ok (s.setWord a v) := State.memWrite4_ok.mpr ⟨h, rfl⟩

theorem State.memRead4_eq {s : State} {a : Nat} (h : a + 4 ≤ s.memTop) :
    s.memRead4 a = .ok (s.wordAt a) := State.memRead4_ok.mpr ⟨h, rfl⟩

/-- Where an operand that decodes without a fault points, the access is in bounds. -/
theorem State.locOf_inBounds {s : State} {o : Operand} {p : Nat} {v : Word} (h : s.readOperand o p = .ok v) :
    match s.locOf o with
    | .noLoc => True
    | .regLoc r => r < nreg
    | .memLoc addr => addr.toNat + 4 ≤ s.memTop := by
  cases o with
  | reg r =>
    simp only [State.readOperand] at h
    split at h
    · assumption
    · cases h
  | mem _ | stk _ => exact (State.memRead4_ok.mp h).1
  | imm8 _ | imm32 _ | reserved _ | noTag | noPayload => trivial

/-- Whether an operand decodes without a fault does not depend on what Memory and the slots hold. -/
theorem State.readOperand_ok_of {s t : State} {o : Operand} {p : Nat} {v : Word} (hc : t.cfg = s.cfg)
    (hs : t.sp = s.sp) (h : s.readOperand o p = .ok v) : ∃ w, t.readOperand o p = .ok w := by
  have hb := State.locOf_inBounds h
  cases o with
  | imm8 v | imm32 v => exact ⟨_, rfl⟩
  | reg r => exact ⟨_, if_pos hb⟩
  | mem a => exact ⟨_, State.memRead4_eq (by rw [State.memTop_congr hc]; exact hb)⟩
  | stk k =>
    exact ⟨_, State.memRead4_eq (by rw [State.memTop_congr hc, State.stkAddr, hs]; exact hb)⟩
  | reserved t | noTag | noPayload => simp [State.readOperand] at h

/-- A store that misses a descriptor's bytes leaves what the descriptor decodes to alone. -/
theorem State.operandAt_setWord {s : State} {o : Operand} {p q a : Nat} {v w : Word}
    (ho : s.operandAt p = o) (hr : s.readOperand o q = .ok w) (h : a + 4 ≤ p ∨ p + o.size ≤ a) :
    (s.setWord a v).operandAt p = o := by
  subst ho
  refine decodeOperand_congr (State.readOperand_wf hr) fun k hk => s.byteAt_setWord_other v ?_
  have hk' : k < (s.operandAt p).size := hk
  unfold inWord
  omega

/-! ## The write-back -/

/-- A write-back through a descriptor that decodes without a fault writes its location and cannot fail. -/
theorem State.writeBack_eq {s : State} {p : Nat} {w v : Word} (h : s.readOperand (s.operandAt p) p = .ok w) :
    s.writeBack p v = .ok (s.putAt (s.operandAt p) v) := by
  have hb := State.locOf_inBounds h
  simp only [State.writeBack, State.resolveLocation, h, Except.map, State.putAt]
  cases hl : s.locOf (s.operandAt p) with
  | noLoc => rfl
  | regLoc r => rfl
  | memLoc addr => rw [hl] at hb; exact State.memWrite4_eq hb

/-- A write-back through a descriptor whose decode faults raises that fault. -/
theorem State.writeBack_error {s : State} {p : Nat} {e : Raise} (v : Word)
    (h : s.readOperand (s.operandAt p) p = .error e) : s.writeBack p v = .error e := by
  simp only [State.writeBack, State.resolveLocation, h, Except.map]

/-! ## How the templates end -/

theorem State.withA_ok {s : State} {a : Operand} {va : Word} (k : Word → Answer) (ha : s.readsA a va) :
    s.withA a k = k va := by
  simp only [State.withA, ha]

theorem State.withA_error {s : State} {a : Operand} {e : Raise} (k : Word → Answer)
    (ha : s.readOperand a s.start = .error e) : s.withA a k = .next (s.raiseFault s.pc e) := by
  simp only [State.withA, ha]

theorem State.withAB_ok {s : State} {a b : Operand} {va vb : Word} (k : Word → Word → Answer)
    (ha : s.readsA a va) (hb : s.readsB a b vb) : s.withAB a b k = k va vb := by
  simp only [State.withAB, State.withA_ok _ ha, hb]

theorem State.withAB_errorA {s : State} {a b : Operand} {e : Raise} (k : Word → Word → Answer)
    (ha : s.readOperand a s.start = .error e) : s.withAB a b k = .next (s.raiseFault s.pc e) :=
  State.withA_error _ ha

theorem State.withAB_errorB {s : State} {a b : Operand} {va : Word} {e : Raise} (k : Word → Word → Answer)
    (ha : s.readsA a va) (hb : s.readOperand b (s.start + a.size) = .error e) :
    s.withAB a b k = .next (s.raiseFault s.pc e) := by
  simp only [State.withAB, State.withA_ok _ ha, hb]

/-- An operation that is done, with a descriptor at `start` that then decodes: the write, then pc. -/
theorem State.finishWrite_done {s s1 : State} {nx v w : Word}
    (h : s1.readOperand (s1.operandAt s.start) s.start = .ok w) :
    s.finishWrite nx (.done v s1) = .next ((s1.putAt (s1.operandAt s.start) v).setPc nx) := by
  simp only [State.finishWrite, State.writeBack_eq h]

/-- An operation that is done, with a descriptor at `start` whose decode then faults (60 R171). -/
theorem State.finishWrite_fault {s s1 : State} {nx v : Word} {e : Raise}
    (h : s1.readOperand (s1.operandAt s.start) s.start = .error e) :
    s.finishWrite nx (.done v s1) = .next (s1.raiseFault s.pc e) := by
  simp only [State.finishWrite, State.writeBack_error v h]

@[simp] theorem State.finishWrite_raised (s s1 : State) (nx : Word) (e : Raise) :
    s.finishWrite nx (.raised e s1) = .next (s1.raiseFault s.pc e) := rfl

@[simp] theorem State.finishPlain_raised (s s1 : State) (nx : Word) (e : Raise) :
    s.finishPlain nx (.raised e s1) = .next (s1.raiseFault s.pc e) := rfl

@[simp] theorem State.finishPlain_done (s s1 : State) (nx : Word) :
    s.finishPlain nx (.done () s1) = .next (s1.setPc nx) := rfl

/-- The same for an operation that left everything the descriptor's decode depends on alone: the location is the
one operand A had (40 R91). -/
theorem State.finishWrite_same {s s1 : State} {i : Instr} {nx v va : Word} (hf : s.fetches i)
    (ha : s.readsA i.operandA va) (hc : s1.cfg = s.cfg) (hm : s1.mem = s.mem) (hx : s1.x = s.x)
    (hs : s1.sp = s.sp) :
    s.finishWrite nx (.done v s1) = .next ((s1.putAt i.operandA v).setPc nx) := by
  have ho : s1.operandAt s.start = i.operandA := by rw [State.operandAt_congr hc hm, hf.operandA]
  have h : s1.readOperand (s1.operandAt s.start) s.start = .ok va := by
    rw [ho, State.readOperand_congr hc hm hx hs]; exact ha
  rw [State.finishWrite_done h, ho]

end Sys2Proof.Machine
end

