-- ==== Sys2Proof/Laws/Exec.lean ====
section
/-! SUPPORT. What any instruction can do: it always answers a next state, and a property every primitive effect
keeps is kept by every instruction and every step. -/

namespace Sys2Proof.Machine

open Sys2Proof

/-- The state an operation leaves, done or raised. -/
def OpResult.state {α : Type} : OpResult α → State
  | .done _ s => s
  | .raised _ s => s

/-! ## What a template keeps -/

/-- A property kept by taking a fault, by moving pc and by a write to a location in bounds. -/
structure KeptByEnds (P : State → Prop) : Prop where
  fault : ∀ s opAt e, P s → P (s.raiseFault opAt e)
  jump : ∀ s p, P s → P (s.setPc p)
  reg : ∀ s r v, r < nreg → P s → P (s.setReg r v)
  store : ∀ s a v, a + 4 ≤ s.memTop → P s → P (s.setWord a v)

variable {P : State → Prop}

theorem KeptByEnds.putAt (hP : KeptByEnds P) {s : State} {o : Operand} {p : Nat} {w : Word} (v : Word)
    (h : s.readOperand o p = .ok w) (hs : P s) : P (s.putAt o v) := by
  have hb := State.locOf_inBounds h
  unfold State.putAt
  cases hl : s.locOf o with
  | noLoc => exact hs
  | regLoc r => rw [hl] at hb; exact hP.reg s r v hb hs
  | memLoc addr => rw [hl] at hb; exact hP.store s _ v hb hs

theorem finishWrite_kept (hP : KeptByEnds P) {s t : State} {nx : Word} {r : OpResult Word} (hr : P r.state)
    (h : s.finishWrite nx r = .next t) : P t := by
  cases r with
  | raised e s1 => cases h; exact hP.fault _ _ _ hr
  | done v s1 =>
    cases hw : s1.readOperand (s1.operandAt s.start) s.start with
    | error e => rw [State.finishWrite_fault hw] at h; cases h; exact hP.fault _ _ _ hr
    | ok w => rw [State.finishWrite_done hw] at h; cases h; exact hP.jump _ _ (hP.putAt v hw hr)

theorem finishPlain_kept (hP : KeptByEnds P) {s t : State} {nx : Word} {r : OpResult Unit} (hr : P r.state)
    (h : s.finishPlain nx r = .next t) : P t := by
  cases r with
  | raised e s1 => cases h; exact hP.fault _ _ _ hr
  | done v s1 => cases h; exact hP.jump _ _ hr

theorem withA_kept (hP : KeptByEnds P) {s t : State} {a : Operand} {k : Word → Answer} (hs : P s)
    (hk : ∀ va, s.readsA a va → k va = .next t → P t) (h : s.withA a k = .next t) : P t := by
  cases ha : s.readOperand a s.start with
  | error e => rw [State.withA_error _ ha] at h; cases h; exact hP.fault _ _ _ hs
  | ok va => rw [State.withA_ok _ ha] at h; exact hk va ha h

theorem withAB_kept (hP : KeptByEnds P) {s t : State} {a b : Operand} {k : Word → Word → Answer} (hs : P s)
    (hk : ∀ va vb, s.readsA a va → s.readsB a b vb → k va vb = .next t → P t)
    (h : s.withAB a b k = .next t) : P t := by
  refine withA_kept hP hs (fun va ha h => ?_) h
  cases hb : s.readOperand b (s.start + a.size) with
  | error e => rw [hb] at h; cases h; exact hP.fault _ _ _ hs
  | ok vb => rw [hb] at h; exact hk va vb ha hb h

theorem templateW2_kept (hP : KeptByEnds P) {a b : Operand} {op : Word → Word → State → OpResult Word}
    {s t : State} (hs : P s) (h : templateW2 a b op s = .next t) (hop : ∀ va vb, P (op va vb s).state) : P t :=
  withAB_kept hP hs (fun va vb _ _ h => finishWrite_kept hP (hop va vb) h) h

theorem templateW1_kept (hP : KeptByEnds P) {a : Operand} {op : Word → State → OpResult Word}
    {s t : State} (hs : P s) (h : templateW1 a op s = .next t) (hop : ∀ va, P (op va s).state) : P t :=
  withA_kept hP hs (fun va _ h => finishWrite_kept hP (hop va) h) h

theorem templateN2_kept (hP : KeptByEnds P) {a b : Operand} {op : Word → Word → State → OpResult Unit}
    {s t : State} (hs : P s) (h : templateN2 a b op s = .next t) (hop : ∀ va vb, P (op va vb s).state) : P t :=
  withAB_kept hP hs (fun va vb _ _ h => finishPlain_kept hP (hop va vb) h) h

theorem templateN1_kept (hP : KeptByEnds P) {a : Operand} {op : Word → State → OpResult Unit}
    {s t : State} (hs : P s) (h : templateN1 a op s = .next t) (hop : ∀ va, P (op va s).state) : P t :=
  withA_kept hP hs (fun va _ h => finishPlain_kept hP (hop va) h) h

theorem templateJump_kept (hP : KeptByEnds P) {a : Operand} {taken : State → Bool} {s t : State} (hs : P s)
    (h : templateJump a taken s = .next t) : P t :=
  withA_kept hP hs (fun va _ h => by cases h; exact hP.jump _ _ hs) h

/-! ## What the operations keep -/

/-- A property kept by every primitive effect an instruction can have. -/
structure KeptByEffects (P : State → Prop) : Prop extends KeptByEnds P where
  flags : ∀ s a b, P s → P (s.setFlags a b)
  push : ∀ s, 4 ≤ s.sp.toNat → P s → P (s.moveSp (s.sp - 4))
  pop : ∀ s, s.sp.toNat + 4 ≤ s.memTop → P s → P (s.moveSp (s.sp + 4))
  alloc : ∀ s, s.hp.toNat + cellSize ≤ s.memTop → P s → P (s.moveHp (s.hp + BitVec.ofNat 32 cellSize))
  read : ∀ s e, P s → P (s.recordRead e)
  write : ∀ s p v, P s → P (s.ioWrite p v)

theorem busRead_kept (hP : KeptByEffects P) {s : State} (a : Word) (hs : P s) : P (s.busRead a).state := by
  unfold State.busRead
  split
  · exact hP.read _ _ hs
  · split <;> exact hs

theorem storeOp_kept (hP : KeptByEffects P) {s : State} (a b : Word) (hs : P s) : P (storeOp a b s).state := by
  unfold storeOp
  split
  · exact hs
  · rename_i s1 h
    obtain ⟨hb, rfl⟩ := State.memWrite4_ok.mp h
    exact hP.store _ _ _ hb hs

theorem allocCell_kept (hP : KeptByEffects P) {s : State} (a b : Word) (hs : P s) : P (s.allocCell a b).state := by
  unfold State.allocCell State.alloc
  split
  · rename_i h
    split at h
    · cases h; exact hs
    · cases h
  · rename_i o s1 h
    split at h
    · cases h
    · cases h
      have h1 := hP.alloc s (by omega) hs
      split
      · exact h1
      · rename_i s2 hw
        obtain ⟨hb, rfl⟩ := State.memWrite4_ok.mp hw
        have h2 := hP.store _ _ a hb h1
        split
        · exact h2
        · rename_i s3 hw
          obtain ⟨hb, rfl⟩ := State.memWrite4_ok.mp hw
          exact hP.store _ _ b hb h2

theorem pushWord_kept (hP : KeptByEffects P) {s : State} (v : Word) (hs : P s) : P (s.pushWord v).state := by
  unfold State.pushWord
  split
  · exact hs
  · rename_i h4
    have h1 := hP.push s (by rw [BitVec.lt_def] at h4; simpa using h4) hs
    split
    · exact h1
    · rename_i s1 h
      obtain ⟨hb, rfl⟩ := State.memWrite4_ok.mp h
      exact hP.store _ _ _ hb h1

theorem popWord_kept (hP : KeptByEffects P) {s : State} (hs : P s) : P s.popWord.state := by
  unfold State.popWord
  split
  · exact hs
  · split
    · exact hs
    · exact hP.pop s (by omega) hs

theorem fieldOp_state (a : Nat) (s : State) : (fieldOp a s).state = s := by
  unfold fieldOp; split <;> rfl

theorem unlessZero_state (f : Word → Word → Word) (a b : Word) (s : State) : (unlessZero f a b s).state = s := by
  unfold unlessZero; split <;> rfl

/-! ## Every instruction, every step -/

/-- A property every primitive effect keeps is kept by every instruction. -/
theorem exec_kept (hP : KeptByEffects P) {i : Instr} {s t : State} (hs : P s) (h : exec i s = .next t) : P t := by
  have hE := hP.toKeptByEnds
  cases i with
  | add a b | sub a b | mul a b | and a b | or a b | xor a b => exact templateW2_kept hE hs h (fun _ _ => hs)
  | div a b | mod a b =>
    exact templateW2_kept hE hs h (fun va vb => by rw [unlessZero_state]; exact hs)
  | not a => exact templateW1_kept hE hs h (fun _ => hs)
  | cmp a b => exact templateN2_kept hE hs h (fun _ _ => hP.flags _ _ _ hs)
  | jmp a | je a | jne a | jlt a | jgt a => exact templateJump_kept hE hs h
  | ldr a b => exact templateW2_kept hE hs h (fun _ vb => busRead_kept hP vb hs)
  | str a b => exact templateW2_kept hE hs h (fun va vb => storeOp_kept hP va vb hs)
  | cons a b => exact templateW2_kept hE hs h (fun va vb => allocCell_kept hP va vb hs)
  | car a => exact templateW1_kept hE hs h (fun va => by rw [carOp, fieldOp_state]; exact hs)
  | cdr a => exact templateW1_kept hE hs h (fun va => by rw [cdrOp, fieldOp_state]; exact hs)
  | push a => exact templateN1_kept hE hs h (fun va => pushWord_kept hP va hs)
  | pop a => exact templateW1_kept hE hs h (fun _ => popWord_kept hP hs)
  | inp a b => exact templateW2_kept hE hs h (fun _ _ => hP.read _ _ hs)
  | out a b => exact templateN2_kept hE hs h (fun _ _ => hP.write _ _ _ hs)

/-- The run test fails (40 R80), in numbers. -/
theorem State.inRom_eq_false {s : State} :
    s.inRom = false ↔ s.romSize.toNat ≤ (s.pc.toNat + (2 ^ 32 - 0x1000)) % 2 ^ 32 := by
  simp only [State.inRom, decide_eq_false_iff_not, BitVec.lt_def, BitVec.toNat_sub, romBase]
  have : BitVec.toNat (4096 : BitVec 32) = 4096 := rfl
  rw [this]
  omega

/-- With the image inside Memory, pc is in the ROM region exactly if the run test passes (40 R80). -/
theorem State.inRom_eq_true {s : State} (h : 0x1000 + s.romSize.toNat ≤ s.memTop) :
    s.inRom = true ↔ 0x1000 ≤ s.pc.toNat ∧ s.pc.toNat < 0x1000 + s.romSize.toNat := by
  have ht : s.memTop < 2 ^ 32 := s.cfg.memSize.isLt
  have hp := s.pc.isLt
  have := s.inRom_eq_false
  cases hr : s.inRom with
  | true => simp [hr] at this; simp; omega
  | false => simp [hr] at this; simp; omega

/-- A step is nothing, the clean halt, the unknown opcode's fault, or the instruction at pc. -/
theorem step_cases {s t : State} (h : step s = .next t) :
    (s.run ≠ .running ∧ t = s) ∨
    (s.run = .running ∧ s.inRom = false ∧ t = s.cleanHalt) ∨
    (s.run = .running ∧ s.inRom = true ∧ ∃ op, s.fetched = .error (.unknownOpcode op) ∧
      t = s.raiseFault s.pc ⟨.unknownOpcode, op.setWidth 32⟩) ∨
    (s.run = .running ∧ s.inRom = true ∧ ∃ i, s.fetches i ∧ exec i s = .next t) := by
  unfold step at h
  split at h
  · rename_i hh; cases h; exact .inl ⟨by simpa [State.isHalted] using hh, rfl⟩
  · rename_i hh
    have hr : s.run = .running := by simpa [State.isHalted] using hh
    split at h
    · rename_i hi
      unfold State.fetchThen at h
      split at h
      · rename_i i hf; exact .inr (.inr (.inr ⟨hr, hi, i, hf, h⟩))
      · rename_i op hf; cases h; exact .inr (.inr (.inl ⟨hr, hi, op, hf, rfl⟩))
      · cases h
    · rename_i hi; cases h; exact .inr (.inl ⟨hr, by simpa using hi, rfl⟩)

/-- A property every primitive effect and the clean halt keep is kept by every step. -/
theorem step_kept (hP : KeptByEffects P) (hh : ∀ s, P s → P s.cleanHalt) {s t : State} (hs : P s)
    (h : step s = .next t) : P t := by
  rcases step_cases h with ⟨-, rfl⟩ | ⟨-, -, rfl⟩ | ⟨-, -, op, -, rfl⟩ | ⟨-, -, i, -, h⟩
  · exact hs
  · exact hh s hs
  · exact hP.fault _ _ _ hs
  · exact exec_kept hP hs h

/-- Every instruction answers a next state, whatever the state: a fault of the engine is one (60 R160). -/
theorem exec_next (i : Instr) (s : State) : ∃ t, exec i s = .next t := by
  have hw : ∀ nx r, ∃ t, s.finishWrite nx r = .next t := by
    intro nx r
    cases r with
    | raised e s1 => exact ⟨_, rfl⟩
    | done v s1 => unfold State.finishWrite; dsimp only; split <;> exact ⟨_, rfl⟩
  have hp : ∀ nx r, ∃ t, s.finishPlain nx r = .next t := by
    intro nx r
    cases r <;> exact ⟨_, rfl⟩
  have hA : ∀ a k, (∀ va, ∃ t, k va = .next t) → ∃ t, s.withA a k = .next t := by
    intro a k hk
    unfold State.withA
    split
    · exact ⟨_, rfl⟩
    · exact hk _
  have hAB : ∀ a b k, (∀ va vb, ∃ t, k va vb = .next t) → ∃ t, s.withAB a b k = .next t := by
    intro a b k hk
    refine hA a _ fun va => ?_
    split
    · exact ⟨_, rfl⟩
    · exact hk _ _
  cases i with
  | add _ _ | sub _ _ | div _ _ | mul _ _ | mod _ _ | and _ _ | or _ _ | xor _ _ | ldr _ _ | str _ _ | cons _ _
  | inp _ _ => exact hAB _ _ _ fun _ _ => hw _ _
  | not _ | car _ | cdr _ | pop _ => exact hA _ _ fun _ => hw _ _
  | cmp _ _ | out _ _ => exact hAB _ _ _ fun _ _ => hp _ _
  | jmp _ | je _ | jne _ | jlt _ | jgt _ => exact hA _ _ fun _ => ⟨_, rfl⟩
  | push _ => exact hA _ _ fun _ => hp _ _

end Sys2Proof.Machine
end

