-- ==== Sys2Proof/Laws/Instr.lean ====
section
/-! SUPPORT. What an instruction of each template does when its operands decode and when they do not, and one
lemma per operation that says what it answers. -/

namespace Sys2Proof.Machine

open Sys2Proof

/-! ## The operands -/

/-- An instruction of two operands takes the operands' faults, whatever it goes on to do. -/
theorem takesOperandFaults_two {s : State} {i : Instr} {a b : Operand} {k : Word → Word → Answer}
    (ha : i.operandA = a) (hb : i.operandB? = some b) (he : exec i s = s.withAB a b k) :
    s.takesOperandFaults i := by
  constructor
  · intro e h; rw [he, State.withAB_errorA]; rwa [ha] at h
  · intro b' va e h h1 h2
    rw [hb] at h; cases h
    rw [ha] at h1 h2
    rw [he, State.withAB_errorB _ h1 h2]

/-- An instruction of one operand takes its fault, whatever it goes on to do. -/
theorem takesOperandFaults_one {s : State} {i : Instr} {a : Operand} {k : Word → Answer}
    (ha : i.operandA = a) (hb : i.operandB? = none) (he : exec i s = s.withA a k) : s.takesOperandFaults i := by
  constructor
  · intro e h; rw [he, State.withA_error]; rwa [ha] at h
  · intro b' va e h h1 h2
    rw [hb] at h; cases h

/-! ## The templates -/

/-- Template W2 whose operation is done and left Memory, the slots, sp and the parameters alone. -/
theorem templateW2_done {i : Instr} {s s1 : State} {a b : Operand} {op : Word → Word → State → OpResult Word}
    {va vb v : Word} (he : exec i s = templateW2 a b op s) (hi : i.operandA = a) (hf : s.fetches i)
    (ha : s.readsA a va) (hb : s.readsB a b vb) (ho : op va vb s = .done v s1) (hc : s1.cfg = s.cfg)
    (hm : s1.mem = s.mem) (hx : s1.x = s.x) (hs : s1.sp = s.sp) :
    exec i s = .next ((s1.putAt a v).setPc (s.nextAfter2 a b)) := by
  rw [he, templateW2, State.withAB_ok _ ha hb, ho]
  subst hi
  exact State.finishWrite_same hf ha hc hm hx hs

/-- Template W1 whose operation is done and left Memory, the slots, sp and the parameters alone. -/
theorem templateW1_done {i : Instr} {s s1 : State} {a : Operand} {op : Word → State → OpResult Word}
    {va v : Word} (he : exec i s = templateW1 a op s) (hi : i.operandA = a) (hf : s.fetches i)
    (ha : s.readsA a va) (ho : op va s = .done v s1) (hc : s1.cfg = s.cfg)
    (hm : s1.mem = s.mem) (hx : s1.x = s.x) (hs : s1.sp = s.sp) :
    exec i s = .next ((s1.putAt a v).setPc (s.nextAfter1 a)) := by
  rw [he, templateW1, State.withA_ok _ ha, ho]
  subst hi
  exact State.finishWrite_same hf ha hc hm hx hs

theorem templateW2_ok {s : State} {a b : Operand} {op : Word → Word → State → OpResult Word} {va vb : Word}
    (ha : s.readsA a va) (hb : s.readsB a b vb) :
    templateW2 a b op s = s.finishWrite (s.nextAfter2 a b) (op va vb s) := State.withAB_ok _ ha hb

theorem templateW1_ok {s : State} {a : Operand} {op : Word → State → OpResult Word} {va : Word}
    (ha : s.readsA a va) : templateW1 a op s = s.finishWrite (s.nextAfter1 a) (op va s) := State.withA_ok _ ha

theorem templateN2_ok {s : State} {a b : Operand} {op : Word → Word → State → OpResult Unit} {va vb : Word}
    (ha : s.readsA a va) (hb : s.readsB a b vb) :
    templateN2 a b op s = s.finishPlain (s.nextAfter2 a b) (op va vb s) := State.withAB_ok _ ha hb

theorem templateN1_ok {s : State} {a : Operand} {op : Word → State → OpResult Unit} {va : Word}
    (ha : s.readsA a va) : templateN1 a op s = s.finishPlain (s.nextAfter1 a) (op va s) := State.withA_ok _ ha

theorem templateJump_ok {a : Operand} {s : State} {va : Word} (taken : State → Bool) (ha : s.readsA a va) :
    templateJump a taken s = .next (s.setPc (if taken s then va else s.nextAfter1 a)) := State.withA_ok _ ha

/-- How template W2 can end: a fault of an operand, or the end of the operation on the two values. -/
theorem templateW2_cases {s t : State} {a b : Operand} {op : Word → Word → State → OpResult Word}
    (h : templateW2 a b op s = .next t) :
    (∃ e, t = s.raiseFault s.pc e) ∨
    ∃ va vb, s.readsA a va ∧ s.readsB a b vb ∧ s.finishWrite (s.nextAfter2 a b) (op va vb s) = .next t := by
  cases ha : s.readOperand a s.start with
  | error e => rw [templateW2, State.withAB_errorA _ ha] at h; cases h; exact .inl ⟨e, rfl⟩
  | ok va =>
    cases hb : s.readOperand b (s.start + a.size) with
    | error e => rw [templateW2, State.withAB_errorB _ ha hb] at h; cases h; exact .inl ⟨e, rfl⟩
    | ok vb => rw [templateW2_ok ha hb] at h; exact .inr ⟨va, vb, ha, hb, h⟩

/-- How template W1 can end: a fault of the operand, or the end of the operation on its value. -/
theorem templateW1_cases {s t : State} {a : Operand} {op : Word → State → OpResult Word}
    (h : templateW1 a op s = .next t) :
    (∃ e, t = s.raiseFault s.pc e) ∨
    ∃ va, s.readsA a va ∧ s.finishWrite (s.nextAfter1 a) (op va s) = .next t := by
  cases ha : s.readOperand a s.start with
  | error e => rw [templateW1, State.withA_error _ ha] at h; cases h; exact .inl ⟨e, rfl⟩
  | ok va => rw [templateW1_ok ha] at h; exact .inr ⟨va, ha, h⟩

/-- How an operation that is done ends: the fault of the descriptor then at `start`, or the write to its location
and pc. -/
theorem finishWrite_cases {s s1 t : State} {nx v : Word} (h : s.finishWrite nx (.done v s1) = .next t) :
    (∃ e, t = s1.raiseFault s.pc e) ∨ t = (s1.putAt (s1.operandAt s.start) v).setPc nx := by
  cases hw : s1.readOperand (s1.operandAt s.start) s.start with
  | error e => rw [State.finishWrite_fault hw] at h; cases h; exact .inl ⟨e, rfl⟩
  | ok w => rw [State.finishWrite_done hw] at h; cases h; exact .inr rfl

/-! ## Locations -/

/-- A write to an operand's location leaves every other slot and byte alone. -/
theorem State.onlyAt_putAt (s : State) (o : Operand) (v : Word) : s.onlyAt (s.putAt o v) (s.locOf o) := by
  unfold State.putAt
  cases s.locOf o with
  | noLoc => exact ⟨fun _ _ => rfl, fun _ _ => rfl⟩
  | regLoc r =>
    exact ⟨fun q hq => State.getReg_setReg_other s v (fun h => hq (by rw [h])), fun _ _ => rfl⟩
  | memLoc addr => exact ⟨fun _ _ => rfl, fun p hp => State.get_setWord_other s v (hp addr rfl)⟩

theorem State.onlyAt_same {s t : State} (l : Loc) (hx : t.x = s.x) (hm : t.mem = s.mem) : s.onlyAt t l :=
  ⟨fun r _ => by simp [State.getReg, hx], fun p _ => by rw [hm]⟩

/-- What a done operation that left Memory alone changes at its end: the location of operand A, pc, the halt. -/
theorem finishWrite_frame {s s1 t : State} {i : Instr} {nx v : Word} (hf : s.fetches i) (hc : s1.cfg = s.cfg)
    (hm : s1.mem = s.mem) (h : s.finishWrite nx (.done v s1) = .next t) :
    s1.onlyAt t (s1.locOf i.operandA) ∧ s1.sameFlags t ∧ t.sp = s1.sp ∧ t.hp = s1.hp ∧ t.trace = s1.trace := by
  have ho : s1.operandAt s.start = i.operandA := (State.operandAt_congr hc hm _).trans hf.operandA
  rcases finishWrite_cases h with ⟨e, rfl⟩ | rfl
  · exact ⟨State.onlyAt_same _ rfl rfl, ⟨rfl, rfl, rfl, rfl⟩, rfl, rfl, rfl⟩
  · rw [ho]
    exact ⟨State.onlyAt_putAt s1 i.operandA v, ⟨by simp, by simp, by simp, by simp⟩, by simp, by simp, by simp⟩

/-! ## The operations -/

/-- A device read (20 R42): its answer, recorded. -/
theorem loadOp_device {s : State} (a : Word) {b : Word} (h : s.cfg.isDevice b = true) :
    loadOp a b s = .done (Config.deviceAnswer s.draws b)
      (s.recordRead (.devRead b (Config.deviceAnswer s.draws b))) := if_pos h

/-- A bus read of Memory (20 R42). -/
theorem loadOp_memory {s : State} (a : Word) {b : Word} (h : s.cfg.isDevice b = false)
    (hm : b.toNat + 4 ≤ s.memTop) : loadOp a b s = .done (s.wordAt b.toNat) s :=
  (if_neg (by simp [h])).trans (if_pos hm)

/-- A bus read that nothing answers (20 R42). -/
theorem loadOp_out {s : State} (a : Word) {b : Word} (h : s.cfg.isDevice b = false)
    (hm : s.memTop < b.toNat + 4) : loadOp a b s = .raised ⟨.outOfBounds, b⟩ s :=
  (if_neg (by simp [h])).trans (if_neg (by omega))

theorem unlessZero_ok {f : Word → Word → Word} {a b : Word} (s : State) (h : b ≠ 0) :
    unlessZero f a b s = .done (f a b) s := if_neg h

theorem unlessZero_zero (f : Word → Word → Word) (a : Word) (s : State) :
    unlessZero f a 0 s = .raised ⟨.divisionByZero, 0⟩ s := rfl

theorem storeOp_ok {s : State} {a : Word} (b : Word) (h : a.toNat + 4 ≤ s.memTop) :
    storeOp a b s = .done 0 (s.setWord a.toNat b) := by
  rw [storeOp, State.memWrite4_eq h]

theorem storeOp_out {s : State} {a : Word} (b : Word) (h : s.memTop < a.toNat + 4) :
    storeOp a b s = .raised ⟨.outOfBounds, a⟩ s := by
  rw [storeOp, State.memWrite4, if_pos h]; simp [boundsRaise]

theorem fieldOp_ok {s : State} {a : Nat} (h : a + 4 ≤ s.memTop) : fieldOp a s = .done (s.wordAt a) s := by
  rw [fieldOp, State.memRead4_eq h]

theorem fieldOp_out {s : State} {a : Nat} (h : s.memTop < a + 4) : fieldOp a s = .raised (boundsRaise a) s := by
  rw [fieldOp, State.memRead4, if_pos h]

/-- A cell that fits (44 R140, R141): hp raised, then the two words at the old hp. -/
theorem consOp_ok {s : State} (a b : Word) (h : s.hp.toNat + 8 ≤ s.memTop) :
    consOp a b s =
      .done s.hp (((s.moveHp (s.hp + 8)).setWord s.hp.toNat a).setWord (s.hp.toNat + 4) b) := by
  have h' : ¬ s.memTop < s.hp.toNat + cellSize := by simpa [cellSize] using h
  rw [consOp, State.allocCell, State.alloc, if_neg h']
  dsimp only
  rw [State.memWrite4_eq (by simp; omega)]
  dsimp only
  rw [State.memWrite4_eq (by simp; omega)]
  rfl

theorem consOp_out {s : State} (a b : Word) (h : s.memTop < s.hp.toNat + 8) :
    consOp a b s = .raised ⟨.heapExhausted, s.hp⟩ s := by
  rw [consOp, State.allocCell, State.alloc, if_pos h]

theorem sp_sub_four {v : Word} (h : 4 ≤ v.toNat) : (v - 4).toNat = v.toNat - 4 := by
  rw [BitVec.toNat_sub]; simp; omega

theorem pushOp_ok {s : State} (v : Word) (h : 4 ≤ s.sp.toNat) (hm : s.sp.toNat ≤ s.memTop) :
    pushOp v s = .done () ((s.moveSp (s.sp - 4)).setWord (s.sp.toNat - 4) v) := by
  rw [pushOp, State.pushWord, if_neg (by rw [BitVec.lt_def]; simp; omega),
    State.memWrite4_eq (by rw [sp_sub_four h]; simp; omega), sp_sub_four h]

theorem pushOp_low {s : State} (v : Word) (h : s.sp.toNat < 4) :
    pushOp v s = .raised ⟨.stackOverflow, s.sp⟩ s := by
  rw [pushOp, State.pushWord, if_pos (by rw [BitVec.lt_def]; exact h)]

/-- Only with sp past Memory, which 10 R25 rules out: the write faults with sp already moved. -/
theorem pushOp_above {s : State} (v : Word) (h : 4 ≤ s.sp.toNat) (hm : s.memTop < s.sp.toNat) :
    pushOp v s = .raised (boundsRaise (s.sp.toNat - 4)) (s.moveSp (s.sp - 4)) := by
  rw [pushOp, State.pushWord, if_neg (by rw [BitVec.lt_def]; simp; omega),
    State.memWrite4, if_pos (by rw [sp_sub_four h]; simp; omega), sp_sub_four h]

theorem popOp_ok {s : State} (v : Word) (h : s.sp.toNat + 4 ≤ s.memTop) :
    popOp v s = .done (s.wordAt s.sp.toNat) (s.moveSp (s.sp + 4)) := by
  rw [popOp, State.popWord, if_neg (by omega), State.memRead4_eq h]

theorem popOp_empty {s : State} (v : Word) (h : s.memTop < s.sp.toNat + 4) :
    popOp v s = .raised ⟨.stackUnderflow, s.sp⟩ s := by
  rw [popOp, State.popWord, if_pos h]

end Sys2Proof.Machine
end

