-- ==== Sys2Proof/Laws/PerInstr.lean ====
section
/-! SUPPORT. The family EncodedSize: a well-formed instruction's encoding has the length the decoder advances by
(30 R60, R65), one lemma per instruction. -/

namespace Sys2Proof.Laws.EncodedSize

open Sys2Proof Sys2Proof.Machine

/-- The encoding of a well-formed instruction is as long as the instruction's size says. -/
def Statement (i : Instr) : Prop := i.wf = true → (encode i).length = i.size

theorem two {i : Instr} {a b : Operand} (ha : i.operandA = a) (hb : i.operandB? = some b) : Statement i := by
  intro h
  simp only [Instr.wf, ha, hb, Option.map_some, Option.getD_some, Bool.and_eq_true] at h
  simp only [encode, Instr.size, ha, hb, Option.map_some, Option.getD_some, List.length_cons, List.length_append,
    encodeOperand_length h.1, encodeOperand_length h.2]
  omega

theorem one {i : Instr} {a : Operand} (ha : i.operandA = a) (hb : i.operandB? = none) : Statement i := by
  intro h
  simp only [Instr.wf, ha, hb, Option.map_none, Option.getD_none, Bool.and_true] at h
  simp only [encode, Instr.size, ha, hb, Option.map_none, Option.getD_none, List.length_cons, List.append_nil,
    encodeOperand_length h]
  omega

theorem add (a b : Operand) : Statement (.add a b) := two rfl rfl
theorem sub (a b : Operand) : Statement (.sub a b) := two rfl rfl
theorem div (a b : Operand) : Statement (.div a b) := two rfl rfl
theorem mul (a b : Operand) : Statement (.mul a b) := two rfl rfl
theorem mod (a b : Operand) : Statement (.mod a b) := two rfl rfl
theorem and (a b : Operand) : Statement (.and a b) := two rfl rfl
theorem or (a b : Operand) : Statement (.or a b) := two rfl rfl
theorem xor (a b : Operand) : Statement (.xor a b) := two rfl rfl
theorem not (a : Operand) : Statement (.not a) := one rfl rfl
theorem cmp (a b : Operand) : Statement (.cmp a b) := two rfl rfl
theorem jmp (a : Operand) : Statement (.jmp a) := one rfl rfl
theorem je (a : Operand) : Statement (.je a) := one rfl rfl
theorem jne (a : Operand) : Statement (.jne a) := one rfl rfl
theorem jlt (a : Operand) : Statement (.jlt a) := one rfl rfl
theorem jgt (a : Operand) : Statement (.jgt a) := one rfl rfl
theorem ldr (a b : Operand) : Statement (.ldr a b) := two rfl rfl
theorem str (a b : Operand) : Statement (.str a b) := two rfl rfl
theorem cons (a b : Operand) : Statement (.cons a b) := two rfl rfl
theorem car (a : Operand) : Statement (.car a) := one rfl rfl
theorem cdr (a : Operand) : Statement (.cdr a) := one rfl rfl
theorem push (a : Operand) : Statement (.push a) := one rfl rfl
theorem pop (a : Operand) : Statement (.pop a) := one rfl rfl
theorem inp (a b : Operand) : Statement (.inp a b) := two rfl rfl
theorem out (a b : Operand) : Statement (.out a b) := two rfl rfl

end Sys2Proof.Laws.EncodedSize
end

