-- ==== Sys2Proof/Tests/Slice0.lean ====
section
/-! SUPPORT. Tests. Expected values come from spec/95_test_vectors.md (the vector's name stands in each comment) or
from the spec's encoding tables; each step test is one step. Then a witness for every statement with hypotheses, at
the boundary of each clause. -/

namespace Sys2Proof.Tests

open Sys2Proof Sys2Proof.Machine

/-! ## WellFormed smoke: one ill-formed term for each check -/

/-- A REG number of 8 (30 R68). -/
theorem test_wf_refuses_slot_eight : (Instr.push (.reg 8)).wf = false := by decide
/-- A reserved tag, also as operand B. -/
theorem test_wf_refuses_reserved_tag : (Instr.add (.reg 0) (.reserved 6)).wf = false := by decide
/-- A descriptor without a tag. -/
theorem test_wf_refuses_no_tag : (Instr.jmp .noTag).wf = false := by decide
/-- A descriptor without its payload. -/
theorem test_wf_refuses_no_payload : (Instr.cmp (.imm8 0) .noPayload).wf = false := by decide
/-- Slot 7 and an immediate first operand are legal (40 R93). -/
theorem test_wf_accepts : (Instr.add (.imm8 1) (.reg 7)).wf = true := by decide

/-! ## Decoding: one word of every instruction, written out from 30 R63 and R66 -/

theorem test_decode_add : decode [0x01, 0x03, 0x00, 0x02, 0x00, 0xFF, 0xFF, 0xFF] =
    .ok (.add (.reg 0) (.imm32 0xFFFFFF00)) := by decide
theorem test_decode_sub : decode [0x02, 0x03, 0x00, 0x03, 0x01] = .ok (.sub (.reg 0) (.reg 1)) := by decide
theorem test_decode_div : decode [0x03, 0x03, 0x07, 0x01, 0x80] = .ok (.div (.reg 7) (.imm8 0x80)) := by decide
theorem test_decode_mul : decode [0x04, 0x03, 0x00, 0x02, 0x00, 0x00, 0x01, 0x00] =
    .ok (.mul (.reg 0) (.imm32 0x10000)) := by decide
theorem test_decode_mod : decode [0x05, 0x05, 0xFF, 0x03, 0x01] = .ok (.mod (.stk 255) (.reg 1)) := by decide
theorem test_decode_and : decode [0x06, 0x04, 0x78, 0x56, 0x34, 0x12, 0x01, 0x0F] =
    .ok (.and (.mem 0x12345678) (.imm8 15)) := by decide
theorem test_decode_or : decode [0x07, 0x03, 0x00, 0x04, 0x00, 0x20, 0x00, 0x00] =
    .ok (.or (.reg 0) (.mem 0x2000)) := by decide
theorem test_decode_xor : decode [0x08, 0x01, 0xFF, 0x05, 0x02] = .ok (.xor (.imm8 255) (.stk 2)) := by decide
theorem test_decode_not : decode [0x09, 0x03, 0x03] = .ok (.not (.reg 3)) := by decide
theorem test_decode_cmp : decode [0x0A, 0x02, 0xFF, 0xFF, 0xFF, 0xFF, 0x01, 0x00] =
    .ok (.cmp (.imm32 0xFFFFFFFF) (.imm8 0)) := by decide
theorem test_decode_jmp : decode [0x0B, 0x02, 0x00, 0x10, 0x00, 0x00] = .ok (.jmp (.imm32 0x1000)) := by decide
theorem test_decode_je : decode [0x0C, 0x05, 0x00] = .ok (.je (.stk 0)) := by decide
theorem test_decode_jne : decode [0x0D, 0x02, 0x0F, 0x10, 0x00, 0x00] = .ok (.jne (.imm32 0x100F)) := by decide
theorem test_decode_jlt : decode [0x0E, 0x03, 0x02] = .ok (.jlt (.reg 2)) := by decide
theorem test_decode_jgt : decode [0x0F, 0x01, 0x00] = .ok (.jgt (.imm8 0)) := by decide
theorem test_decode_ldr : decode [0x10, 0x03, 0x00, 0x02, 0x04, 0x00, 0x00, 0xF0] =
    .ok (.ldr (.reg 0) (.imm32 0xF0000004)) := by decide
theorem test_decode_str : decode [0x11, 0x02, 0x0C, 0x10, 0x00, 0x00, 0x02, 0x01, 0x01, 0x01, 0x2A] =
    .ok (.str (.imm32 0x100C) (.imm32 0x2A010101)) := by decide
theorem test_decode_cons : decode [0x12, 0x03, 0x00, 0x01, 0x14] = .ok (.cons (.reg 0) (.imm8 20)) := by decide
theorem test_decode_car : decode [0x13, 0x04, 0x00, 0x20, 0x00, 0x00] = .ok (.car (.mem 0x2000)) := by decide
theorem test_decode_cdr : decode [0x14, 0x03, 0x01] = .ok (.cdr (.reg 1)) := by decide
theorem test_decode_push : decode [0x15, 0x01, 0x05] = .ok (.push (.imm8 5)) := by decide
theorem test_decode_pop : decode [0x16, 0x05, 0x01] = .ok (.pop (.stk 1)) := by decide
theorem test_decode_in : decode [0x17, 0x03, 0x00, 0x01, 0x02] = .ok (.inp (.reg 0) (.imm8 2)) := by decide
theorem test_decode_out : decode [0x18, 0x01, 0x01, 0x01, 0x2A] = .ok (.out (.imm8 1) (.imm8 42)) := by decide

/-- 0x00 and 0x19 select no instruction (30 R67). -/
theorem test_decode_unknown :
    decode [0x00] = .error (.unknownOpcode 0x00) ∧ decode [0x19] = .error (.unknownOpcode 0x19) := by decide
/-- The table gives a row its first byte alone; the zero bytes that follow are reserved tags (30 R68). -/
theorem test_table_word : decodeTableWord 8 0x18 = some (.out (.reserved 0) (.reserved 0)) := by decide

/-! ## One step -/

/-- The start state of 95 section 0: MEMORY_SIZE 0x10000, no device, slot i at 0xDEAD0000 + i, the bytes loaded. -/
def boot (image : List Byte) : State :=
  State.resetFrom ((⟨⟨0x10000, []⟩, #v[0xDEAD0000, 0xDEAD0001, 0xDEAD0002, 0xDEAD0003, 0xDEAD0004, 0xDEAD0005,
    0xDEAD0006, 0xDEAD0007], [], 0⟩ : Launch).withImage image)

/-- `boot` with the one device of the vectors L4, L5 and L7. -/
def bootDev (image : List Byte) : State :=
  let s := boot image
  { s with cfg := ⟨0x10000, [⟨0xF0000000, 0xF0000000⟩]⟩ }

/-- What one step leaves, seen through `f`. -/
def seen {α : Type} (s : State) (f : State → α) : Option α :=
  match step s with
  | .next t => some (f t)
  | .fault _ => none
  | .refused _ => none

/-- Vector A1. -/
theorem test_add_wraps :
    seen ((boot [0x01, 0x03, 0x00, 0x01, 0x05]).setReg 0 0xFFFFFFFE) (fun t => (t.getReg 0, t.pc)) =
      some ((3, 0x1005)) := by decide
/-- Vector O4. -/
theorem test_add_unaligned_word :
    seen ((boot [0x01, 0x04, 0x01, 0x20, 0x00, 0x00, 0x01, 0x01]).setWord 0x2000 0xFFFFFF00)
      (fun t => (t.wordAt 0x2000, t.wordAt 0x2004)) = some ((0, 1)) := by decide
/-- Vector A3. -/
theorem test_sub_minuend_first :
    seen (((boot [0x02, 0x03, 0x00, 0x03, 0x01]).setReg 0 5).setReg 1 7) (fun t => (t.getReg 0, t.getReg 1)) =
      some ((0xFFFFFFFE, 7)) := by decide
/-- Vector A7. -/
theorem test_div_unsigned :
    seen ((boot [0x03, 0x03, 0x00, 0x01, 0x02]).setReg 0 0xFFFFFFFF) (fun t => t.getReg 0) =
      some (0x7FFFFFFF) := by decide
/-- Vector A8. -/
theorem test_div_by_zero :
    seen ((boot [0x03, 0x03, 0x00, 0x01, 0x00]).setReg 0 10) (fun t => (t.getReg 0, t.run)) =
      some ((10, .fault .divisionByZero 0x1000 0)) := by decide
/-- Vector A5. -/
theorem test_mul_low_word :
    seen ((boot [0x04, 0x03, 0x00, 0x03, 0x00]).setReg 0 0xFFFFFFFF) (fun t => t.getReg 0) =
      some (1) := by decide
/-- Vector A10. -/
theorem test_mod_unsigned :
    seen ((boot [0x05, 0x03, 0x00, 0x02, 0xFF, 0xFF, 0xFF, 0xFF]).setReg 0 0x80000000)
      (fun t => (t.getReg 0, t.pc)) = some ((0x80000000, 0x1008)) := by decide
/-- Vector A11. -/
theorem test_mod_by_zero :
    seen ((boot [0x05, 0x03, 0x00, 0x03, 0x01]).setReg 1 0) (fun t => t.run) =
      some (.fault .divisionByZero 0x1000 0) := by decide
/-- Vector A12. -/
theorem test_and :
    seen ((boot [0x06, 0x03, 0x00, 0x01, 0x0F]).setReg 0 0x12345678) (fun t => t.getReg 0) =
      some (8) := by decide
/-- Vector A13. -/
theorem test_or :
    seen ((boot [0x07, 0x03, 0x00, 0x01, 0x0F]).setReg 0 0x12345670) (fun t => t.getReg 0) =
      some (0x1234567F) := by decide
/-- Vector A15. -/
theorem test_xor :
    seen ((boot [0x08, 0x03, 0x00, 0x02, 0xFF, 0xFF, 0xFF, 0xFF]).setReg 0 0x0F0F0F0F) (fun t => t.getReg 0) =
      some (0xF0F0F0F0) := by decide
/-- Vector A16. -/
theorem test_not :
    seen ((boot [0x09, 0x03, 0x03]).setReg 3 0xCAFEBABE) (fun t => (t.getReg 3, t.pc)) =
      some ((0x35014541, 0x1003)) := by decide
/-- Vector O14. -/
theorem test_not_deep_stack :
    seen ((boot [0x09, 0x05, 0xFF]).moveSp 0xFC00) (fun t => (t.wordAt 0xFFFC, t.sp)) =
      some ((0xFFFFFFFF, 0xFC00)) := by decide
/-- Vector B1. -/
theorem test_cmp_equal :
    seen (boot [0x0A, 0x01, 0x04, 0x01, 0x04]) (fun t => (t.eqFlag, t.ltFlag, t.pc)) =
      some ((true, false, 0x1005)) := by decide
/-- Vector B5. -/
theorem test_cmp_unsigned_less :
    seen (boot [0x0A, 0x01, 0x00, 0x02, 0xFF, 0xFF, 0xFF, 0xFF]) (fun t => (t.eqFlag, t.ltFlag)) =
      some ((false, true)) := by decide
/-- Vector B10. -/
theorem test_jmp_below_image :
    seen (boot [0x0B, 0x02, 0xFF, 0x0F, 0x00, 0x00]) (fun t => (t.pc, t.run)) =
      some ((0xFFF, .running)) := by decide
/-- Vector B6. -/
theorem test_je_not_taken :
    seen (boot [0x0C, 0x02, 0x00, 0x20, 0x00, 0x00]) (fun t => t.pc) =
      some (0x1006) := by decide
/-- Vector B9. -/
theorem test_je_operand_faults_untaken :
    seen (boot [0x0C, 0x09, 0x00]) (fun t => t.run) =
      some (.fault .invalidOperand 0x1000 0x1001) := by decide
/-- Vector B6. -/
theorem test_jne_taken : seen (boot [0x0D, 0x02, 0x00, 0x20, 0x00, 0x00]) (fun t => t.pc) = some (0x2000) := by decide
/-- Vector B6. -/
theorem test_jlt_taken :
    seen ((boot [0x0E, 0x02, 0x00, 0x20, 0x00, 0x00]).setFlags 0 1) (fun t => t.pc) =
      some (0x2000) := by decide
/-- Vector B6. -/
theorem test_jgt_not_taken_equal :
    seen ((boot [0x0F, 0x02, 0x00, 0x20, 0x00, 0x00]).setFlags 0 0) (fun t => t.pc) =
      some (0x1006) := by decide
/-- Vector L3. -/
theorem test_ldr_double_indirection :
    seen (((boot [0x10, 0x03, 0x00, 0x04, 0x00, 0x20, 0x00, 0x00]).setWord 0x2000 0x2004).setWord 0x2004 0x99)
      (fun t => t.getReg 0) = some (0x99) := by decide
/-- Vector L5. -/
theorem test_ldr_neither_device_nor_memory :
    seen (bootDev [0x10, 0x03, 0x00, 0x02, 0x04, 0x00, 0x00, 0xF0]) (fun t => t.run) =
      some (.fault .outOfBounds 0x1000 0xF0000004) := by decide
/-- Vector L8. -/
theorem test_str_stores_then_zeroes :
    seen ((boot [0x11, 0x03, 0x02, 0x02, 0xBE, 0xBA, 0xFE, 0xCA]).setReg 2 0x2000)
      (fun t => (t.byteAt? 0x2000, t.byteAt? 0x2003, t.getReg 2)) = some ((some 0xBE, some 0xCA, 0)) := by decide
/-- Vector L11. -/
theorem test_str_onto_its_pointer :
    seen ((boot [0x11, 0x04, 0x04, 0x20, 0x00, 0x00, 0x01, 0x07]).setWord 0x2004 0x2004)
      (fun t => t.wordAt 0x2004) = some (0) := by decide
/-- Vector H1. -/
theorem test_cons_builds_cell :
    seen (((boot [0x12, 0x03, 0x00, 0x01, 0x14]).setReg 0 10).moveHp 0x1020)
      (fun t => (t.getReg 0, t.hp, t.wordAt 0x1020, t.wordAt 0x1024)) = some ((0x1020, 0x1028, 10, 20)) := by decide
/-- Vector H5. -/
theorem test_cons_heap_exhausted :
    seen ((boot [0x12, 0x03, 0x00, 0x01, 0x01]).moveHp 0xFFF9) (fun t => (t.run, t.hp)) =
      some ((.fault .heapExhausted 0x1000 0xFFF9, 0xFFF9)) := by decide
/-- Vector H6. -/
theorem test_car :
    seen (((boot [0x13, 0x03, 0x00]).setReg 0 0x1020).setWord 0x1020 10) (fun t => t.getReg 0) =
      some (10) := by decide
/-- Vector H7. -/
theorem test_cdr :
    seen (((boot [0x14, 0x03, 0x01]).setReg 1 0x1020).setWord 0x1024 20) (fun t => t.getReg 1) =
      some (20) := by decide
/-- Vector H10. -/
theorem test_cdr_does_not_wrap :
    seen ((boot [0x14, 0x03, 0x01]).setReg 1 0xFFFFFFFC) (fun t => t.run) =
      some (.fault .outOfBounds 0x1000 0) := by decide
/-- Vector K2. -/
theorem test_push_reads_before_sp_moves :
    seen (((boot [0x15, 0x05, 0x00]).moveSp 0xFFFC).setWord 0xFFFC 9) (fun t => (t.sp, t.wordAt 0xFFF8)) =
      some ((0xFFF8, 9)) := by decide
/-- Vector K3. -/
theorem test_push_overflow :
    seen ((boot [0x15, 0x01, 0x05]).moveSp 0) (fun t => (t.run, t.sp)) =
      some ((.fault .stackOverflow 0x1000 0, 0)) := by decide
/-- Vector K7. -/
theorem test_pop_writes_with_raised_sp :
    seen (((boot [0x16, 0x05, 0x00]).moveSp 0xFFF8).setWord 0xFFF8 3) (fun t => (t.sp, t.wordAt 0xFFFC)) =
      some ((0xFFFC, 3)) := by decide
/-- Vector K8. -/
theorem test_pop_write_back_faults :
    seen (((boot [0x16, 0x05, 0x00]).moveSp 0xFFFC).setWord 0xFFFC 3) (fun t => (t.run, t.sp)) =
      some ((.fault .outOfBounds 0x1000 0x10000, 0x10000)) := by decide
/-- Vector K12. -/
theorem test_in_records_one_read :
    seen (boot [0x17, 0x03, 0x00, 0x01, 0x02]) (fun t => (t.trace.length, t.pc)) =
      some ((1, 0x1005)) := by decide
/-- Vector K14. -/
theorem test_out_records_one_write :
    seen (boot [0x18, 0x01, 0x01, 0x01, 0x2A]) (fun t => (t.trace, t.pc)) =
      some (([.ioWrite 1 42], 0x1005)) := by decide
/-- Vector X1. -/
theorem test_halt_at_image_end : seen (boot []) (fun t => (t.run, t.pc)) = some ((.success, 0x1000)) := by decide
/-- Vector X4. -/
theorem test_unknown_opcode :
    seen (boot [0xFF]) (fun t => t.run) =
      some (.fault .unknownOpcode 0x1000 0xFF) := by decide

/-- withFetchWord places a table word's instruction where reset fetches: `out` of 11 bytes, its first tag 0. -/
theorem test_fetch_word_runs : seen (State.reset.withFetchWord 8 0x18) (·.run) =
    some (.fault .invalidOperand 0x1000 0x1001) := by decide
/-- With nothing placed, the step after reset is the clean halt (log entry 4). -/
theorem test_reset_halts : seen State.reset (·.run) = some .success := by decide

/-! ## Witnesses: for every statement with hypotheses, values that meet them -/

/-- `s` is about to run `i`, and its two operands read as `va` and `vb`. -/
abbrev ready2 (s : State) (i : Instr) (a b : Operand) (va vb : Word) : Prop :=
  s.fetches i ∧ s.readsA a va ∧ s.readsB a b vb

/-- `s` is about to run `i`, and its operand reads as `va`. -/
abbrev ready1 (s : State) (i : Instr) (a : Operand) (va : Word) : Prop := s.fetches i ∧ s.readsA a va

/-- The longest instruction, with every operand byte at its highest value. -/
theorem witness_DecodeEncodeRoundTrip : (Instr.cons (.mem 0xFFFFFFFF) (.imm32 0xFFFFFFFF)).wf = true ∧
    ∀ k, k < (encode (.cons (.mem 0xFFFFFFFF) (.imm32 0xFFFFFFFF))).length →
      (fun n => (encode (.cons (.mem 0xFFFFFFFF) (.imm32 0xFFFFFFFF)))[n]?) (0 + k) =
        (encode (.cons (.mem 0xFFFFFFFF) (.imm32 0xFFFFFFFF)))[k]? := by decide

theorem witness_EncodeDecodeRoundTrip :
    decodeAt (fun k => ([0x16, 0x05, 0xFF] : List Byte)[k]?) 0 = .ok (.pop (.stk 255)) ∧
      (Instr.pop (.stk 255)).wf = true := by decide

/-- The five lengths. -/
theorem witness_InstructionLengths :
    (Instr.not (.reg 7)).wf = true ∧ (encode (.not (.reg 7))).length = 3 ∧
    (Instr.not (.mem 0)).wf = true ∧ (encode (.not (.mem 0))).length = 6 ∧
    (Instr.add (.reg 0) (.imm8 0)).wf = true ∧ (encode (.add (.reg 0) (.imm8 0))).length = 5 ∧
    (Instr.add (.reg 0) (.imm32 0)).wf = true ∧ (encode (.add (.reg 0) (.imm32 0))).length = 8 ∧
    (Instr.add (.mem 0) (.imm32 0)).wf = true ∧ (encode (.add (.mem 0) (.imm32 0))).length = 11 := by decide

/-- The ends of the two clauses: 0x01 and 0x18; 0x00, 0x19 and 0xFF. -/
theorem witness_OpcodeByteSelects : ∀ op ∈ ([0x01, 0x18, 0x00, 0x19, 0xFF] : List Byte),
    (fun k => ([op] : List Byte)[k]?) 0 = some op ∧
      ((1 ≤ op.toNat ∧ op.toNat ≤ 0x18) ∨ (op.toNat = 0 ∨ 0x18 < op.toNat)) := by decide

/-- An address of the first clause, and one outside the word. -/
theorem witness_StoreIsLittleEndian : (3 : Nat) < 4 ∧ ¬ inWord 0x2000 0x1FFF ∧ ¬ inWord 0x2000 0x2004 := by decide

/-- Tags 0, 6 and 255; a REG payload of 8 and of 255. -/
theorem witness_ReservedDescriptorsFault :
    (boot [0x01, 0x00]).byteAt? 0x1001 = some 0x00 ∧ (boot [0x01, 0x06]).byteAt? 0x1001 = some 0x06 ∧
    (boot [0x01, 0xFF]).byteAt? 0x1001 = some 0xFF ∧
    (boot [0x01, 0x03, 0x08]).byteAt? 0x1001 = some 0x03 ∧ (boot [0x01, 0x03, 0x08]).byteAt? 0x1002 = some 0x08 ∧
    (boot [0x01, 0x03, 0xFF]).byteAt? 0x1002 = some 0xFF := by decide

/-- A decode that raises; one for each kind of location, the last word of Memory and slot 7 among them. -/
theorem witness_WriteBackWritesLocation :
    (boot [0x09, 0x00]).decodeOperandAt 0x1001 = .error ⟨.invalidOperand, 0x1001⟩ ∧
    (boot [0x09, 0x03, 0x07]).decodeOperandAt 0x1001 = .ok (0xDEAD0007, 2) ∧
    (boot [0x09, 0x03, 0x07]).operandAt 0x1001 = .reg 7 ∧
    (boot [0x09, 0x04, 0xFC, 0xFF, 0x00, 0x00]).decodeOperandAt 0x1001 = .ok (0, 5) ∧
    (boot [0x09, 0x04, 0xFC, 0xFF, 0x00, 0x00]).operandAt 0x1001 = .mem 0xFFFC ∧
    ((boot [0x09, 0x05, 0xFF]).moveSp 0xFC00).decodeOperandAt 0x1001 = .ok (0, 2) ∧
    ((boot [0x09, 0x05, 0xFF]).moveSp 0xFC00).operandAt 0x1001 = .stk 255 := by decide

theorem witness_ImmediateWriteBackDiscarded :
    (boot [0x09, 0x01, 0xFF]).operandAt 0x1001 = .imm8 0xFF ∧
    (boot [0x09, 0x02, 0xFF, 0xFF, 0xFF, 0xFF]).operandAt 0x1001 = .imm32 0xFFFFFFFF := by decide

/-- The faults `takesOperandFaults` speaks of, for an instruction of two operands: A's, and B's after A has read. -/
theorem witness_takesOperandFaults :
    (boot []).readOperand (Instr.add (.reg 8) (.imm8 0)).operandA (boot []).start =
      .error ⟨.invalidOperand, 0x1001⟩ ∧
    (Instr.add (.imm8 1) (.mem 0xFFFD)).operandB? = some (.mem 0xFFFD) ∧ (boot []).readsA (.imm8 1) 1 ∧
    (boot []).readOperand (.mem 0xFFFD) ((boot []).start + (Operand.imm8 1).size) =
      .error ⟨.outOfBounds, 0xFFFD⟩ := by decide

theorem witness_AddWritesSum : ready2 (boot [0x01, 0x03, 0x00, 0x01, 0x05]) (.add (.reg 0) (.imm8 5))
    (.reg 0) (.imm8 5) 0xDEAD0000 5 := by decide
theorem witness_SubWritesDifference : ready2 (boot [0x02, 0x03, 0x00, 0x03, 0x01]) (.sub (.reg 0) (.reg 1))
    (.reg 0) (.reg 1) 0xDEAD0000 0xDEAD0001 := by decide
/-- The smallest divisor, and zero. -/
theorem witness_DivWritesQuotient :
    ready2 (boot [0x03, 0x03, 0x00, 0x01, 0x01]) (.div (.reg 0) (.imm8 1)) (.reg 0) (.imm8 1) 0xDEAD0000 1 ∧
    (1 : Word) ≠ 0 ∧
    ready2 (boot [0x03, 0x03, 0x00, 0x01, 0x00]) (.div (.reg 0) (.imm8 0)) (.reg 0) (.imm8 0) 0xDEAD0000 0 := by
  decide
theorem witness_MulWritesLowProduct : ready2 (boot [0x04, 0x03, 0x00, 0x03, 0x00]) (.mul (.reg 0) (.reg 0))
    (.reg 0) (.reg 0) 0xDEAD0000 0xDEAD0000 := by decide
/-- The smallest divisor, and zero. -/
theorem witness_ModWritesRemainder :
    ready2 (boot [0x05, 0x03, 0x00, 0x01, 0x01]) (.mod (.reg 0) (.imm8 1)) (.reg 0) (.imm8 1) 0xDEAD0000 1 ∧
    ready2 (boot [0x05, 0x03, 0x00, 0x01, 0x00]) (.mod (.reg 0) (.imm8 0)) (.reg 0) (.imm8 0) 0xDEAD0000 0 := by
  decide
theorem witness_AndWritesBitwiseAnd : (31 : Nat) < 32 ∧ ready2 (boot [0x06, 0x04, 0x00, 0x20, 0x00, 0x00, 0x01, 0x0F])
    (.and (.mem 0x2000) (.imm8 15)) (.mem 0x2000) (.imm8 15) 0 15 := by decide
theorem witness_OrWritesBitwiseOr : ready2 (boot [0x07, 0x01, 0x01, 0x03, 0x07]) (.or (.imm8 1) (.reg 7))
    (.imm8 1) (.reg 7) 1 0xDEAD0007 := by decide
theorem witness_XorWritesBitwiseXor : ready2 ((boot [0x08, 0x05, 0x00, 0x05, 0x00]).moveSp 0xFFFC)
    (.xor (.stk 0) (.stk 0)) (.stk 0) (.stk 0) 0 0 := by decide
theorem witness_NotWritesComplement : ready1 (boot [0x09, 0x03, 0x03]) (.not (.reg 3)) (.reg 3) 0xDEAD0003 := by decide
theorem witness_CmpSetsFlags : ready2 (boot [0x0A, 0x01, 0x04, 0x01, 0x04]) (.cmp (.imm8 4) (.imm8 4))
    (.imm8 4) (.imm8 4) 4 4 := by decide
theorem witness_JmpSetsPc : ready1 (boot [0x0B, 0x03, 0x02]) (.jmp (.reg 2)) (.reg 2) 0xDEAD0002 := by decide
/-- The flags of an equal `cmp`, and of reset. -/
theorem witness_JeJumpsIffEqual :
    ready1 ((boot [0x0C, 0x03, 0x02]).setFlags 0 0) (.je (.reg 2)) (.reg 2) 0xDEAD0002 ∧
    ((boot [0x0C, 0x03, 0x02]).setFlags 0 0).eqFlag = true ∧
    ready1 (boot [0x0C, 0x03, 0x02]) (.je (.reg 2)) (.reg 2) 0xDEAD0002 ∧
    (boot [0x0C, 0x03, 0x02]).eqFlag = false := by decide
theorem witness_JneJumpsIffNotEqual :
    ready1 (boot [0x0D, 0x03, 0x02]) (.jne (.reg 2)) (.reg 2) 0xDEAD0002 ∧
    (boot [0x0D, 0x03, 0x02]).eqFlag = false ∧
    ready1 ((boot [0x0D, 0x03, 0x02]).setFlags 0 0) (.jne (.reg 2)) (.reg 2) 0xDEAD0002 ∧
    ((boot [0x0D, 0x03, 0x02]).setFlags 0 0).eqFlag = true := by decide
theorem witness_JltJumpsIffLess :
    ready1 ((boot [0x0E, 0x03, 0x02]).setFlags 0 1) (.jlt (.reg 2)) (.reg 2) 0xDEAD0002 ∧
    ((boot [0x0E, 0x03, 0x02]).setFlags 0 1).ltFlag = true ∧
    ready1 (boot [0x0E, 0x03, 0x02]) (.jlt (.reg 2)) (.reg 2) 0xDEAD0002 ∧
    (boot [0x0E, 0x03, 0x02]).ltFlag = false := by decide
/-- Greater, less and equal. -/
theorem witness_JgtJumpsIffGreater :
    ready1 (boot [0x0F, 0x03, 0x02]) (.jgt (.reg 2)) (.reg 2) 0xDEAD0002 ∧
    ((boot [0x0F, 0x03, 0x02]).ltFlag = false ∧ (boot [0x0F, 0x03, 0x02]).eqFlag = false) ∧
    ready1 ((boot [0x0F, 0x03, 0x02]).setFlags 0 1) (.jgt (.reg 2)) (.reg 2) 0xDEAD0002 ∧
    ((boot [0x0F, 0x03, 0x02]).setFlags 0 1).ltFlag = true ∧
    ((boot [0x0F, 0x03, 0x02]).setFlags 0 0).eqFlag = true := by decide

/-- The device, the last word of Memory, and the first address nothing answers. -/
theorem witness_LdrReadsBus :
    ready2 (bootDev [0x10, 0x03, 0x00, 0x02, 0x00, 0x00, 0x00, 0xF0]) (.ldr (.reg 0) (.imm32 0xF0000000))
      (.reg 0) (.imm32 0xF0000000) 0xDEAD0000 0xF0000000 ∧
    (bootDev [0x10, 0x03, 0x00, 0x02, 0x00, 0x00, 0x00, 0xF0]).cfg.isDevice 0xF0000000 = true ∧
    ready2 (bootDev [0x10, 0x03, 0x00, 0x02, 0xFC, 0xFF, 0x00, 0x00]) (.ldr (.reg 0) (.imm32 0xFFFC))
      (.reg 0) (.imm32 0xFFFC) 0xDEAD0000 0xFFFC ∧
    (bootDev [0x10, 0x03, 0x00, 0x02, 0xFC, 0xFF, 0x00, 0x00]).cfg.isDevice 0xFFFC = false ∧
    (0xFFFC : Word).toNat + 4 ≤ (bootDev []).memTop ∧
    ready2 (bootDev [0x10, 0x03, 0x00, 0x02, 0xFD, 0xFF, 0x00, 0x00]) (.ldr (.reg 0) (.imm32 0xFFFD))
      (.reg 0) (.imm32 0xFFFD) 0xDEAD0000 0xFFFD ∧
    (bootDev [0x10, 0x03, 0x00, 0x02, 0xFD, 0xFF, 0x00, 0x00]).cfg.isDevice 0xFFFD = false ∧
    (bootDev []).memTop < (0xFFFD : Word).toNat + 4 := by decide

/-- The last word; one byte past it; the store that makes its own first descriptor a reserved one (vector L14). -/
theorem witness_StrStoresThenZeroes :
    ready2 (boot [0x11, 0x02, 0xFC, 0xFF, 0x00, 0x00, 0x01, 0x07]) (.str (.imm32 0xFFFC) (.imm8 7))
      (.imm32 0xFFFC) (.imm8 7) 0xFFFC 7 ∧
    ((boot [0x11, 0x02, 0xFC, 0xFF, 0x00, 0x00, 0x01, 0x07]).setWord 0xFFFC 7).readOperand
      (((boot [0x11, 0x02, 0xFC, 0xFF, 0x00, 0x00, 0x01, 0x07]).setWord 0xFFFC 7).operandAt 0x1001) 0x1001 =
      .ok 0xFFFC ∧
    ready2 (boot [0x11, 0x02, 0xFD, 0xFF, 0x00, 0x00, 0x01, 0x07]) (.str (.imm32 0xFFFD) (.imm8 7))
      (.imm32 0xFFFD) (.imm8 7) 0xFFFD 7 ∧
    (boot []).memTop < (0xFFFD : Word).toNat + 4 ∧
    ready2 ((boot [0x11, 0x03, 0x00, 0x01, 0x00]).setReg 0 0x1001) (.str (.reg 0) (.imm8 0))
      (.reg 0) (.imm8 0) 0x1001 0 ∧
    (((boot [0x11, 0x03, 0x00, 0x01, 0x00]).setReg 0 0x1001).setWord 0x1001 0).readOperand
      ((((boot [0x11, 0x03, 0x00, 0x01, 0x00]).setReg 0 0x1001).setWord 0x1001 0).operandAt 0x1001) 0x1001 =
      .error ⟨.invalidOperand, 0x1001⟩ := by decide

/-- A store that ends just below the descriptor, and one that starts just above it. -/
theorem witness_StrZeroesAddressOperand :
    ready2 ((boot [0x11, 0x03, 0x00, 0x01, 0x07]).setReg 0 0xFFD) (.str (.reg 0) (.imm8 7))
      (.reg 0) (.imm8 7) 0xFFD 7 ∧ (0xFFD : Word).toNat + 4 ≤ (boot []).start ∧
    ready2 ((boot [0x11, 0x03, 0x00, 0x01, 0x07]).setReg 0 0x1003) (.str (.reg 0) (.imm8 7))
      (.reg 0) (.imm8 7) 0x1003 7 ∧ (boot []).start + (Operand.reg 0).size ≤ (0x1003 : Word).toNat ∧
    (0x1003 : Word).toNat + 4 ≤ (boot []).memTop := by decide

/-- The last cell that fits, the first that does not, and a cell that spoils `cons`'s own first descriptor. -/
theorem witness_ConsBuildsCell :
    ready2 ((boot [0x12, 0x03, 0x00, 0x01, 0x01]).moveHp 0xFFF8) (.cons (.reg 0) (.imm8 1))
      (.reg 0) (.imm8 1) 0xDEAD0000 1 ∧
    ((boot []).moveHp 0xFFF8).hp.toNat + 8 ≤ (boot []).memTop ∧
    ready2 ((boot [0x12, 0x03, 0x00, 0x01, 0x01]).moveHp 0xFFF9) (.cons (.reg 0) (.imm8 1))
      (.reg 0) (.imm8 1) 0xDEAD0000 1 ∧
    (boot []).memTop < ((boot []).moveHp 0xFFF9).hp.toNat + 8 ∧
    ready2 ((boot [0x12, 0x01, 0x00, 0x01, 0x01]).moveHp 0x1001) (.cons (.imm8 0) (.imm8 1))
      (.imm8 0) (.imm8 1) 0 1 ∧
    ((((boot [0x12, 0x01, 0x00, 0x01, 0x01]).moveHp 0x1009).setWord 0x1001 0).setWord 0x1005 1).readOperand
      (((((boot [0x12, 0x01, 0x00, 0x01, 0x01]).moveHp 0x1009).setWord 0x1001 0).setWord 0x1005 1).operandAt 0x1001)
      0x1001 = .error ⟨.invalidOperand, 0x1001⟩ := by decide

/-- The last word, and one byte past it. -/
theorem witness_CarWritesFirstField :
    ready1 ((boot [0x13, 0x03, 0x01]).setReg 1 0xFFFC) (.car (.reg 1)) (.reg 1) 0xFFFC ∧
    (0xFFFC : Word).toNat + 4 ≤ (boot []).memTop ∧
    ready1 ((boot [0x13, 0x03, 0x01]).setReg 1 0xFFFD) (.car (.reg 1)) (.reg 1) 0xFFFD ∧
    (boot []).memTop < (0xFFFD : Word).toNat + 4 := by decide
theorem witness_CdrWritesSecondField :
    ready1 ((boot [0x14, 0x03, 0x01]).setReg 1 0xFFF8) (.cdr (.reg 1)) (.reg 1) 0xFFF8 ∧
    (0xFFF8 : Word).toNat + 8 ≤ (boot []).memTop ∧
    ready1 ((boot [0x14, 0x03, 0x01]).setReg 1 0xFFF9) (.cdr (.reg 1)) (.reg 1) 0xFFF9 ∧
    (boot []).memTop < (0xFFF9 : Word).toNat + 8 := by decide

/-- `cons r0, #20` before `car r0`: the state in which `consCar` leaves the machine fetches the `car`. -/
def consCar : State := boot [0x12, 0x03, 0x00, 0x01, 0x14, 0x13, 0x03, 0x00]
/-- The same before `cdr r0`. -/
def consCdr : State := boot [0x12, 0x03, 0x00, 0x01, 0x14, 0x14, 0x03, 0x00]
/-- `consCar` with the cell built. -/
def consCarCell : State := ((consCar.moveHp 0x1010).setWord 0x1008 0xDEAD0000).setWord 0x100C 20

theorem witness_ConsThenCarCdr :
    ready2 consCar (.cons (.reg 0) (.imm8 20)) (.reg 0) (.imm8 20) 0xDEAD0000 20 ∧ consCar.hp = 0x1008 ∧
    consCar.hp.toNat + 8 ≤ consCar.memTop ∧
    consCarCell = ((consCar.moveHp (consCar.hp + 8)).setWord consCar.hp.toNat 0xDEAD0000).setWord
      (consCar.hp.toNat + 4) 20 ∧
    consCarCell.readOperand (consCarCell.operandAt consCar.start) consCar.start = .ok 0xDEAD0000 ∧
    consCarCell.locOf (consCarCell.operandAt consCar.start) = .regLoc 0 ∧
    seen consCar (fun u => decide (u.readsA (.reg 0) 0x1008 ∧ u.fetches (.car (.reg 0)))) = some true ∧
    seen consCdr (fun u => decide (u.readsA (.reg 0) 0x1008 ∧ u.fetches (.cdr (.reg 0)))) = some true := by decide

/-- The lowest sp that has room, with a full Memory above it; and the highest that has none. -/
theorem witness_PushWritesTop :
    ready1 ((boot [0x15, 0x01, 0x05]).moveSp 4) (.push (.imm8 5)) (.imm8 5) 5 ∧
    4 ≤ ((boot []).moveSp 4).sp.toNat ∧ (boot []).sp.toNat ≤ (boot []).memTop ∧
    ready1 ((boot [0x15, 0x01, 0x05]).moveSp 3) (.push (.imm8 5)) (.imm8 5) 5 ∧
    ((boot []).moveSp 3).sp.toNat < 4 := by decide

/-- The last word, the empty stack, and the write-back that faults (vector K8). -/
theorem witness_PopReadsTop :
    ready1 ((boot [0x16, 0x03, 0x01]).moveSp 0xFFFC) (.pop (.reg 1)) (.reg 1) 0xDEAD0001 ∧
    ((boot []).moveSp 0xFFFC).sp.toNat + 4 ≤ (boot []).memTop ∧
    ((boot [0x16, 0x03, 0x01]).moveSp 0x10000).readOperand (.reg 1) 0x1001 = .ok 0xDEAD0001 ∧
    ready1 (boot [0x16, 0x03, 0x01]) (.pop (.reg 1)) (.reg 1) 0xDEAD0001 ∧
    (boot []).memTop < (boot []).sp.toNat + 4 ∧
    ready1 ((boot [0x16, 0x05, 0x00]).moveSp 0xFFFC) (.pop (.stk 0)) (.stk 0) 0 ∧
    ((boot [0x16, 0x05, 0x00]).moveSp 0x10000).readOperand (.stk 0) 0x1001 = .error ⟨.outOfBounds, 0x10000⟩ := by
  decide

/-- `push r0` before `pop r1`. -/
def pushPop : State := boot [0x15, 0x03, 0x00, 0x16, 0x03, 0x01]

theorem witness_PushThenPopCopies :
    pushPop.readsA (.reg 0) 0xDEAD0000 ∧ 4 ≤ pushPop.sp.toNat ∧ pushPop.sp.toNat ≤ pushPop.memTop ∧
    pushPop.fetches (.push (.reg 0)) ∧
    seen pushPop (fun t => decide (t.fetches (.pop (.reg 1)) ∧ t.readsA (.reg 1) 0xDEAD0001 ∧
      (t.moveSp pushPop.sp).readOperand (.reg 1) t.start = .ok 0xDEAD0001)) = some true := by decide

theorem witness_InReadsPort : ready2 (boot [0x17, 0x03, 0x00, 0x01, 0x02]) (.inp (.reg 0) (.imm8 2))
    (.reg 0) (.imm8 2) 0xDEAD0000 2 := by decide
theorem witness_OutWritesPort : ready2 (boot [0x18, 0x03, 0x00, 0x03, 0x01]) (.out (.reg 0) (.reg 1))
    (.reg 0) (.reg 1) 0xDEAD0000 0xDEAD0001 := by decide

theorem witness_StepRunsFetched : (boot [0x15, 0x01, 0x05]).run = .running ∧ (boot [0x15, 0x01, 0x05]).inRom = true ∧
    (boot [0x15, 0x01, 0x05]).fetches (.push (.imm8 5)) := by decide

/-- A halted state; pc at the image's end; pc just below the image. -/
theorem witness_RunTestHalts :
    (boot []).cleanHalt.run ≠ .running ∧
    ((boot [0x09, 0x03, 0x00]).setPc 0x1003).run = .running ∧
    ((boot [0x09, 0x03, 0x00]).setPc 0x1003).romSize.toNat ≤
      (((boot [0x09, 0x03, 0x00]).setPc 0x1003).pc.toNat + (2 ^ 32 - 0x1000)) % 2 ^ 32 ∧
    0x1000 + (boot [0x09, 0x03, 0x00]).romSize.toNat ≤ (boot []).memTop ∧
    0x1000 + (boot [0x09, 0x03, 0x00]).romSize.toNat ≤ ((boot [0x09, 0x03, 0x00]).setPc 0x1003).pc.toNat ∧
    ((boot [0x09, 0x03, 0x00]).setPc 0xFFF).pc.toNat < 0x1000 := by decide

/-- The two ends of the unknown opcodes beside the map. -/
theorem witness_UnknownOpcodeFaults : ∀ op ∈ ([0x00, 0x19, 0xFF] : List Byte),
    (boot [op]).run = .running ∧ (boot [op]).inRom = true ∧ (boot [op]).byteAt? (boot [op]).pc.toNat = some op ∧
      (op.toNat = 0 ∨ 0x18 < op.toNat) := by decide

/-- A step that ends the run well, and one that does not. -/
theorem witness_SuccessOnlyByRunTest :
    (boot []).run = .running ∧ (∃ t, step (boot []) = .next t ∧ t.run = .success) ∧
    (boot [0x00]).run = .running ∧ ∃ t, step (boot [0x00]) = .next t ∧ t.run ≠ .success :=
  ⟨rfl, ⟨_, rfl, rfl⟩, rfl, _, rfl, by decide⟩

theorem witness_FaultLeavesStateAlone : (boot [0x03, 0x03, 0x00, 0x01, 0x00]).fetches (.div (.reg 0) (.imm8 0)) ∧
    (boot []).sp.toNat ≤ (boot []).memTop ∧ (boot [0x03, 0x03, 0x00, 0x01, 0x00]).run = .running ∧
    (∃ t, exec (.div (.reg 0) (.imm8 0)) (boot [0x03, 0x03, 0x00, 0x01, 0x00]) = .next t ∧ t.run ≠ .running) ∧
    (∀ a, Instr.div (.reg 0) (.imm8 0) ≠ .pop a) ∧ (∀ a b, Instr.div (.reg 0) (.imm8 0) ≠ .str a b) ∧
    ∀ a b, Instr.div (.reg 0) (.imm8 0) ≠ .cons a b :=
  ⟨by decide, by decide, rfl, ⟨_, rfl, by decide⟩, nofun, nofun, nofun⟩

/-- Also of StepAlwaysAnswers: a state with an image, a full Memory and a nonempty stack. -/
theorem witness_StepKeepsInvariant : ((boot [0x15, 0x01, 0x05]).moveSp 4).Inv ∧
    ∃ t, step ((boot [0x15, 0x01, 0x05]).moveSp 4) = .next t :=
  ⟨⟨by decide, by decide, by decide, by decide, by decide, by decide, by decide, by decide, by decide, by decide⟩,
    _, rfl⟩

/-- An image that ends exactly at MEMORY_SIZE, and a device at the first address above Memory. -/
theorem witness_LaunchMeetsInvariant :
    (⟨⟨0x1008, [⟨0x1008, 0xFFFFFFFF⟩]⟩, Vector.replicate 8 1, [(0x1007, 1)], 8⟩ : Launch).valid := by decide

/-- The image that just fits. -/
theorem witness_LaunchLoadsImage :
    0x1000 + ([1, 2, 3] : List Byte).length ≤ (⟨⟨0x1003, []⟩, Vector.replicate 8 0, [], 0⟩ : Launch).cfg.memSize.toNat ∧
    (2 : Nat) < ([1, 2, 3] : List Byte).length ∧ 0xFFF < 0x1000 ∧ 0x1000 + ([1, 2, 3] : List Byte).length ≤ 0x1003 := by
  decide

/-- Also of ParametersConstant. -/
theorem witness_TraceOnlyGrows : ∃ t, step (boot [0x18, 0x01, 0x01, 0x01, 0x2A]) = .next t ∧
    t.trace = (boot [0x18, 0x01, 0x01, 0x01, 0x2A]).trace ++ [.ioWrite 1 42] := ⟨_, rfl, rfl⟩

theorem witness_ComputeFrame : (boot [0x01, 0x03, 0x00, 0x01, 0x05]).fetches (.add (.reg 0) (.imm8 5)) ∧
    (∃ t, exec (.add (.reg 0) (.imm8 5)) (boot [0x01, 0x03, 0x00, 0x01, 0x05]) = .next t) ∧
    (boot []).locOf (.reg 0) ≠ .regLoc 1 := ⟨by decide, ⟨_, rfl⟩, by decide⟩
theorem witness_JumpFrame : ∃ t, exec (.je (.imm8 0)) (boot [0x0C, 0x01, 0x00]) = .next t := ⟨_, rfl⟩
theorem witness_CmpFrame : ∃ t, exec (.cmp (.imm8 4) (.imm8 4)) (boot [0x0A, 0x01, 0x04, 0x01, 0x04]) = .next t :=
  ⟨_, rfl⟩
theorem witness_OutFrame : ∃ t, exec (.out (.imm8 1) (.imm8 42)) (boot [0x18, 0x01, 0x01, 0x01, 0x2A]) = .next t :=
  ⟨_, rfl⟩
theorem witness_LoadInputFrame : (boot [0x17, 0x03, 0x00, 0x01, 0x02]).fetches (.inp (.reg 0) (.imm8 2)) ∧
    ∃ t, exec (.inp (.reg 0) (.imm8 2)) (boot [0x17, 0x03, 0x00, 0x01, 0x02]) = .next t := ⟨by decide, _, rfl⟩
/-- With an address the store misses. -/
theorem witness_StrFrame :
    (∃ t, exec (.str (.imm32 0x2000) (.imm8 7)) (boot [0x11, 0x02, 0x00, 0x20, 0x00, 0x00, 0x01, 0x07]) = .next t) ∧
    (boot []).readsA (.imm32 0x2000) 0x2000 ∧ ¬ inWord (0x2000 : Word).toNat 0x2004 := ⟨⟨_, rfl⟩, by decide, by decide⟩
/-- With the address just past the cell. -/
theorem witness_ConsFrame : (∃ t, exec (.cons (.reg 0) (.imm8 20)) consCar = .next t) ∧
    consCar.hp.toNat + 8 ≤ 0x1010 ∧ 0x1007 < consCar.hp.toNat := ⟨⟨_, rfl⟩, by decide, by decide⟩
theorem witness_PushFrame : (∃ t, exec (.push (.reg 0)) pushPop = .next t) ∧
    ¬ inWord (pushPop.sp - 4).toNat 0xFFFB := ⟨⟨_, rfl⟩, by decide⟩
theorem witness_PopFrame : ((boot [0x16, 0x03, 0x01]).moveSp 0xFFFC).fetches (.pop (.reg 1)) ∧
    ∃ t, exec (.pop (.reg 1)) ((boot [0x16, 0x03, 0x01]).moveSp 0xFFFC) = .next t := ⟨by decide, _, rfl⟩

end Sys2Proof.Tests
end

/-! SUPPORT. Proofs about the state: the invariants of 10 R25 hold after reset and are kept by every step, the
parameters are constant, and the trace only grows. A step's part follows from `step_kept` where the property
is kept by every primitive effect. -/

namespace Sys2Proof.Machine

open Sys2Proof

/-! ## Words that do not wrap -/

theorem State.memTop_lt (s : State) : s.memTop < 2 ^ 32 := s.cfg.memSize.isLt

/-- A word moved up inside Memory is moved up as a number: MEMORY_SIZE is below 2^32. -/
theorem State.toNat_add_of_le_memTop (s : State) {v w : Word} (h : v.toNat + w.toNat ≤ s.memTop) :
    (v + w).toNat = v.toNat + w.toNat :=
  BitVec.toNat_add_of_lt (h.trans_lt s.memTop_lt)

/-! ## The invariants: one lemma per primitive effect that touches them -/

theorem State.Inv.setFlags {s : State} (h : s.Inv) (a b : Word) : (s.setFlags a b).Inv where
  __ := h
  flags := by
    rintro ⟨heq, hlt⟩
    obtain rfl : a = b := of_decide_eq_true heq
    exact (BitVec.lt_irrefl a) (of_decide_eq_true hlt)

theorem State.Inv.setWord {s : State} (h : s.Inv) {a : Nat} (v : Word) (ha : a + 4 ≤ s.memTop) :
    (s.setWord a v).Inv where
  __ := h
  memForm := Memory.wf_putBytes h.memForm a (bytesOf v)
  memBounds c hc := by
    rcases Memory.mem_putBytes hc with ⟨-, hlt⟩ | hold
    · rw [bytesOf_length] at hlt
      exact hlt.trans_le ha
    · exact h.memBounds c hold

/-- 45 R150: the stack grows by whole words. -/
theorem State.Inv.pushSp {s : State} (h : s.Inv) (h4 : 4 ≤ s.sp.toNat) : (s.moveSp (s.sp - 4)).Inv where
  __ := h
  spBelow := by
    have hb := h.spBelow
    simp only [State.moveSp_sp, State.memTop_moveSp, sp_sub_four h4]
    omega
  spWords := by
    have hw := h.spWords
    simp only [State.moveSp_sp, State.memTop_moveSp, sp_sub_four h4]
    omega

/-- 45 R151: the stack shrinks by whole words, and never past MEMORY_SIZE. -/
theorem State.Inv.popSp {s : State} (h : s.Inv) (hm : s.sp.toNat + 4 ≤ s.memTop) :
    (s.moveSp (s.sp + 4)).Inv := by
  have hsp : (s.sp + 4).toNat = s.sp.toNat + 4 := s.toNat_add_of_le_memTop hm
  exact {
    __ := h
    spBelow := hsp.trans_le hm
    spWords := by
      have hw := h.spWords
      simp only [State.moveSp_sp, State.memTop_moveSp, hsp]
      omega }

/-- 44 R140: hp rises by whole cells, and never past MEMORY_SIZE. -/
theorem State.Inv.allocHp {s : State} (h : s.Inv) (hm : s.hp.toNat + cellSize ≤ s.memTop) :
    (s.moveHp (s.hp + BitVec.ofNat 32 cellSize)).Inv := by
  have hhp : (s.hp + BitVec.ofNat 32 cellSize).toNat = s.hp.toNat + cellSize := s.toNat_add_of_le_memTop hm
  have ha := h.hpAbove
  exact {
    __ := h
    hpAbove := by
      simp only [State.moveHp_hp, State.moveHp_romSize, hhp]
      omega
    hpBelow := hhp.trans_le hm
    hpCells := by
      simp only [State.moveHp_hp, State.moveHp_romSize, hhp]
      rw [Nat.sub_add_comm ha, Nat.add_mod_right]
      exact h.hpCells }

theorem State.Inv.keptByEffects : KeptByEffects State.Inv where
  fault _ _ _ h := { h with }
  jump _ _ h := { h with }
  reg _ _ _ _ h := { h with }
  store _ _ v ha h := h.setWord v ha
  flags _ a b h := h.setFlags a b
  push _ h4 h := h.pushSp h4
  pop _ hm h := h.popSp hm
  alloc _ hm h := h.allocHp hm
  read _ _ h := { h with }
  write _ _ _ h := { h with }

/-- Settles O43: each primitive effect and the clean halt keep the invariants. -/
theorem stepKeepsInvariant : Obligations.StepKeepsInvariant := fun _ _ hs hst =>
  step_kept State.Inv.keptByEffects (fun _ h => { h with }) hs hst

/-! ## Reset -/

/-- Settles O45: sp starts at MEMORY_SIZE and hp at the image's end, which the launch keeps within Memory. -/
theorem launchMeetsInvariant : Obligations.LaunchMeetsInvariant := by
  intro l hl
  obtain ⟨hparams, hfits, hform, hbounds⟩ := hl
  have hhp : (State.resetFrom l).hp.toNat = romBase.toNat + l.romSize.toNat :=
    (State.resetFrom l).toNat_add_of_le_memTop hfits
  exact {
    params := hparams
    romFits := hfits
    spBelow := le_rfl
    spWords := rfl
    hpAbove := hhp.ge
    hpBelow := hhp.trans_le hfits
    hpCells := by
      have hrom : (State.resetFrom l).romSize = l.romSize := rfl
      rw [hhp, hrom, Nat.sub_self, Nat.zero_mod]
    flags := fun h => Bool.false_ne_true h.1
    memForm := hform
    memBounds := hbounds }

/-- Settles O44: `State.reset` is the reset of a valid launch. -/
theorem resetMeetsInvariant : Obligations.ResetMeetsInvariant :=
  launchMeetsInvariant Launch.empty (by decide)

/-! ## The parameters -/

/-- `t` has the parameters and the image length of `s`. -/
def State.sameParameters (s t : State) : Prop := t.cfg = s.cfg ∧ t.romSize = s.romSize

theorem State.sameParameters_keptByEffects (s : State) : KeptByEffects s.sameParameters where
  fault _ _ _ h := h
  jump _ _ h := h
  reg _ _ _ _ h := h
  store _ _ _ _ h := h
  flags _ _ _ h := h
  push _ _ h := h
  pop _ _ h := h
  alloc _ _ h := h
  read _ _ h := h
  write _ _ _ h := h

/-- Settles O49: no primitive effect writes cfg or romSize. -/
theorem parametersConstant : Obligations.ParametersConstant := fun s _ hst =>
  step_kept s.sameParameters_keptByEffects (fun _ h => h) ⟨rfl, rfl⟩ hst

/-! ## The trace -/

/-- The trace of `t` is that of `s`, or that of `s` with one transaction appended. -/
def State.tracesAtMostOne (s t : State) : Prop := t.trace = s.trace ∨ ∃ e, t.trace = s.trace ++ [e]

theorem State.tracesAtMostOne_keptByEnds (s : State) : KeptByEnds s.tracesAtMostOne where
  fault _ _ _ h := h
  jump _ _ h := h
  reg _ _ _ _ h := h
  store _ _ _ _ h := h

theorem storeOp_trace (a b : Word) (s : State) : (storeOp a b s).state.trace = s.trace := by
  by_cases h : a.toNat + 4 ≤ s.memTop
  · rw [storeOp_ok b h]; rfl
  · rw [storeOp_out b (by omega)]; rfl

theorem consOp_trace (a b : Word) (s : State) : (consOp a b s).state.trace = s.trace := by
  by_cases h : s.hp.toNat + 8 ≤ s.memTop
  · rw [consOp_ok a b h]; rfl
  · rw [consOp_out a b (by omega)]; rfl

theorem pushOp_trace (v : Word) (s : State) : (pushOp v s).state.trace = s.trace := by
  by_cases h4 : 4 ≤ s.sp.toNat
  · by_cases hm : s.sp.toNat ≤ s.memTop
    · rw [pushOp_ok v h4 hm]; rfl
    · rw [pushOp_above v h4 (by omega)]; rfl
  · rw [pushOp_low v (by omega)]; rfl

theorem popOp_trace (v : Word) (s : State) : (popOp v s).state.trace = s.trace := by
  by_cases h : s.sp.toNat + 4 ≤ s.memTop
  · rw [popOp_ok v h]; rfl
  · rw [popOp_empty v (by omega)]; rfl

/-- 20 R42: a device read is one transaction, a read of Memory and an unanswered read are none. -/
theorem loadOp_tracesAtMostOne (a b : Word) (s : State) : s.tracesAtMostOne (loadOp a b s).state := by
  cases hd : s.cfg.isDevice b with
  | true => rw [loadOp_device a hd]; exact .inr ⟨_, rfl⟩
  | false =>
    by_cases hm : b.toNat + 4 ≤ s.memTop
    · rw [loadOp_memory a hd hm]; exact .inl rfl
    · rw [loadOp_out a hd (by omega)]; exact .inl rfl

/-- Only the operations of `ldr`, `in` and `out` reach an outward channel, each at most once. -/
theorem exec_tracesAtMostOne {i : Instr} {s t : State} (h : exec i s = .next t) : s.tracesAtMostOne t := by
  have hE := s.tracesAtMostOne_keptByEnds
  have hs : s.tracesAtMostOne s := .inl rfl
  cases i with
  | add a b | sub a b | mul a b | and a b | or a b | xor a b => exact templateW2_kept hE hs h fun _ _ => hs
  | div a b | mod a b => exact templateW2_kept hE hs h fun va vb => by rwa [unlessZero_state]
  | not a => exact templateW1_kept hE hs h fun _ => hs
  | cmp a b => exact templateN2_kept hE hs h fun _ _ => hs
  | jmp a | je a | jne a | jlt a | jgt a => exact templateJump_kept hE hs h
  | ldr a b => exact templateW2_kept hE hs h fun va vb => loadOp_tracesAtMostOne va vb s
  | str a b => exact templateW2_kept hE hs h fun va vb => .inl (storeOp_trace va vb s)
  | cons a b => exact templateW2_kept hE hs h fun va vb => .inl (consOp_trace va vb s)
  | car a | cdr a => exact templateW1_kept hE hs h fun va => .inl (congrArg State.trace (fieldOp_state _ s))
  | push a => exact templateN1_kept hE hs h fun va => .inl (pushOp_trace va s)
  | pop a => exact templateW1_kept hE hs h fun va => .inl (popOp_trace va s)
  | inp a b => exact templateW2_kept hE hs h fun _ _ => .inr ⟨_, rfl⟩
  | out a b => exact templateN2_kept hE hs h fun _ _ => .inr ⟨_, rfl⟩

/-- Settles O50: a step outside exec leaves the trace alone, and an instruction appends at most one transaction. -/
theorem traceOnlyGrows : Obligations.TraceOnlyGrows := by
  intro s t hst
  rcases step_cases hst with ⟨-, rfl⟩ | ⟨-, -, rfl⟩ | ⟨-, -, op, -, rfl⟩ | ⟨-, -, i, -, hexec⟩
  · exact .inl rfl
  · exact .inl rfl
  · exact .inl rfl
  · exact exec_tracesAtMostOne hexec

end Sys2Proof.Machine

/-! SUPPORT. Proofs about Memory: the byte order and the frame of a stored word (20 R30, R37). -/

namespace Sys2Proof.Machine

open Sys2Proof

/-- The bytes of a word stand in address order (20 R30). -/
theorem bytesOf_getElem (v : Word) {i : Nat} (h : i < (bytesOf v).length) : (bytesOf v)[i] = byteOf v i :=
  match i, h with
  | 0, _ | 1, _ | 2, _ | 3, _ => rfl

/-- The byte at `a + i` of a word stored at `a` is the word's byte `i` (20 R30). -/
theorem State.get_setWord_same (s : State) (a : Nat) (v : Word) {i : Nat} (h : i < 4) :
    (s.setWord a v).mem.get (a + i) = byteOf v i :=
  (Memory.get_putBytes_mem s.mem a (bytesOf v) i h).trans (bytesOf_getElem v h)

/-- Settles O6: each clause is the rule of `setWord` for the bytes of the word, the word, and the other bytes. -/
theorem storeIsLittleEndian : Obligations.StoreIsLittleEndian := fun s a v =>
  ⟨fun _ hi => s.get_setWord_same a v hi, s.wordAt_setWord a v, fun _ hp => s.get_setWord_other v hp⟩

end Sys2Proof.Machine

/-! SUPPORT. Proofs about the encoding (30 R60 to R69). For a well-formed instruction, decoding to it and holding
its bytes are one condition; the two round trips are its two directions. -/

namespace Sys2Proof.Machine

open Sys2Proof

/-! ## Bytes in their place -/

/-- The bytes `bs` stand at `p`. -/
def bytesAt (rd : Nat → Option Byte) (p : Nat) (bs : List Byte) : Prop :=
  ∀ k, k < bs.length → rd (p + k) = bs[k]?

theorem bytesAt_nil (rd : Nat → Option Byte) (p : Nat) : bytesAt rd p [] :=
  fun k hk => absurd hk k.not_lt_zero

theorem bytesAt_cons {rd : Nat → Option Byte} {p : Nat} {b : Byte} {bs : List Byte} :
    bytesAt rd p (b :: bs) ↔ rd p = some b ∧ bytesAt rd (p + 1) bs := by
  constructor
  · refine fun h => ⟨h 0 (Nat.succ_pos _), fun k hk => ?_⟩
    rw [Nat.add_right_comm]
    exact h (k + 1) (Nat.succ_lt_succ hk)
  · rintro ⟨hb, hbs⟩ k hk
    cases k with
    | zero => exact hb
    | succ k =>
      rw [← Nat.add_assoc, Nat.add_right_comm]
      exact hbs k (Nat.lt_of_succ_lt_succ hk)

theorem bytesAt_append {rd : Nat → Option Byte} {p : Nat} {as bs : List Byte} :
    bytesAt rd p (as ++ bs) ↔ bytesAt rd p as ∧ bytesAt rd (p + as.length) bs := by
  induction as generalizing p with
  | nil => exact ⟨fun h => ⟨bytesAt_nil rd p, h⟩, And.right⟩
  | cons a as ih =>
    rw [List.cons_append, bytesAt_cons, bytesAt_cons, ih, and_assoc, List.length_cons, Nat.add_assoc,
      Nat.add_comm 1]

/-! ## Descriptors -/

/-- Each of the five kinds is 2 or 5 bytes long (30 R63). -/
theorem Operand.size_of_wf {o : Operand} (h : o.wf = true) : o.size = 2 ∨ o.size = 5 := by
  cases o with
  | imm8 _ | reg _ | stk _ => exact .inl rfl
  | imm32 _ | mem _ => exact .inr rfl
  | reserved _ | noTag | noPayload => cases h

/-- A well-formed descriptor is decoded exactly where its bytes stand. -/
theorem decodeOperand_eq_iff_bytesAt {rd : Nat → Option Byte} {q : Nat} {o : Operand} (hw : o.wf = true) :
    decodeOperand rd q = o ↔ bytesAt rd q (encodeOperand o) := by
  refine ⟨?_, decodeOperand_encode hw⟩
  rintro rfl
  exact encode_decodeOperand hw

/-- A reserved tag is kept, whatever follows it (30 R68). -/
theorem decodeOperand_reserved {rd : Nat → Option Byte} {p : Nat} {tag : Byte} (h : rd p = some tag)
    (ht : tag.toNat = 0 ∨ 5 < tag.toNat) : decodeOperand rd p = .reserved tag := by
  have hne : ∀ t : Byte, 1 ≤ t.toNat ∧ t.toNat ≤ 5 → tag ≠ t := by
    rintro t ht' rfl
    omega
  simp only [decodeOperand, h, hne tagImm8 (by decide), hne tagImm32 (by decide), hne tagReg (by decide),
    hne tagMem (by decide), hne tagStk (by decide), if_false]

theorem State.decodeOperandAt_error {s : State} {a : Nat} {o : Operand} {e : Raise} (ho : s.operandAt a = o)
    (he : s.readOperand o a = .error e) : s.decodeOperandAt a = .error e := by
  rw [State.decodeOperandAt, ho, he]
  rfl

/-- Settles O7: the descriptor is a reserved form, or a REG whose number names no slot. -/
theorem reservedDescriptorsFault : Obligations.ReservedDescriptorsFault := by
  intro s a tag htag
  constructor
  · intro hres
    exact State.decodeOperandAt_error (decodeOperand_reserved htag hres) rfl
  · intro r hreg hr h8
    obtain rfl : tag = tagReg := BitVec.eq_of_toNat_eq hreg
    exact State.decodeOperandAt_error (decodeOperand_reg htag hr) (if_neg h8.not_gt)

/-! ## The opcode byte -/

/-- The opcode map is onto 0x01 to 0x18 (30 R66). -/
theorem exists_shapeOf {op : Byte} (h : 1 ≤ op.toNat ∧ op.toNat ≤ 0x18) : ∃ f, shapeOf op = some f := by
  have hall : ∀ op : Byte, 1 ≤ op.toNat ∧ op.toNat ≤ 0x18 → (shapeOf op).isSome = true := by decide
  exact Option.isSome_iff_exists.mp (hall op h)

/-- The shape selected by an instruction's opcode byte rebuilds it from its operands, and does not look at operand
B where the instruction has none. -/
theorem shapeOf_opcodeByte (i : Instr) : ∃ f, shapeOf (opcodeByte i) = some f ∧
    ∀ c, (∀ b, i.operandB? = some b → c = b) → f i.operandA c = i := by
  cases i with
  | add a b | sub a b | div a b | mul a b | mod a b | and a b | or a b | xor a b | cmp a b | ldr a b | str a b
  | cons a b | inp a b | out a b => exact ⟨_, rfl, fun c hc => congrArg _ (hc b rfl)⟩
  | not a | jmp a | je a | jne a | jlt a | jgt a | car a | cdr a | push a | pop a => exact ⟨_, rfl, fun _ _ => rfl⟩

theorem decodeAt_noOpcode {rd : Nat → Option Byte} {p : Nat} (hop : rd p = none) :
    decodeAt rd p = .error .noOpcode := by
  simp only [decodeAt, hop]

theorem decodeAt_of_shapeOf {rd : Nat → Option Byte} {p : Nat} {op : Byte} {f : Operand → Operand → Instr}
    (hop : rd p = some op) (hf : shapeOf op = some f) :
    decodeAt rd p = .ok (f (decodeOperand rd (p + 1))
      (decodeOperand rd (p + 1 + (decodeOperand rd (p + 1)).size))) := by
  simp only [decodeAt, hop, hf]

theorem decodeAt_unknown {rd : Nat → Option Byte} {p : Nat} {op : Byte} (hop : rd p = some op)
    (hf : shapeOf op = none) : decodeAt rd p = .error (.unknownOpcode op) := by
  simp only [decodeAt, hop, hf]

/-- The instruction decoded at `p` has the byte at `p` for its opcode (30 R61). -/
theorem opcodeByte_of_decodeAt {rd : Nat → Option Byte} {p : Nat} {i : Instr} (h : decodeAt rd p = .ok i) :
    rd p = some (opcodeByte i) := by
  cases hop : rd p with
  | none =>
    rw [decodeAt_noOpcode hop] at h
    cases h
  | some op =>
    cases hf : shapeOf op with
    | none =>
      rw [decodeAt_unknown hop hf] at h
      cases h
    | some f =>
      rw [decodeAt_of_shapeOf hop hf] at h
      cases h
      obtain ⟨hmem, hbyte⟩ := shapeOf_mem hf
      rw [opcodeByte_of_mem_shapes hmem, hbyte]

/-- Settles O4: the shape alone decides, and the decoded instruction has the byte at `p` for its opcode. -/
theorem opcodeByteSelects : Obligations.OpcodeByteSelects := by
  intro rd p op hop
  constructor
  · intro hknown
    obtain ⟨f, hf⟩ := exists_shapeOf hknown
    have hdec := decodeAt_of_shapeOf hop hf
    exact ⟨_, hdec, Option.some.inj ((opcodeByte_of_decodeAt hdec).symm.trans hop)⟩
  · intro hunknown
    exact decodeAt_unknown hop (shapeOf_unknown hunknown)

/-! ## Instructions -/

theorem Instr.wf_iff {i : Instr} :
    i.wf = true ↔ i.operandA.wf = true ∧ ∀ b, i.operandB? = some b → b.wf = true := by
  cases hb : i.operandB? <;> simp [Instr.wf, hb]

/-- 30 R65: the opcode byte at `p`, operand A after it and operand B, if there is one, after A are all that decoding
depends on. -/
theorem decodeAt_eq_ok_iff {rd : Nat → Option Byte} {p : Nat} {i : Instr} :
    decodeAt rd p = .ok i ↔ rd p = some (opcodeByte i) ∧ decodeOperand rd (p + 1) = i.operandA ∧
      ∀ b, i.operandB? = some b → decodeOperand rd (p + 1 + i.operandA.size) = b := by
  constructor
  · intro h
    exact ⟨opcodeByte_of_decodeAt h, (operandA_of_decodeAt h).symm, fun _ hb => (operandB_of_decodeAt h hb).symm⟩
  · rintro ⟨hop, hA, hB⟩
    obtain ⟨f, hf, hrebuild⟩ := shapeOf_opcodeByte i
    rw [decodeAt_of_shapeOf hop hf, hA, hrebuild _ hB]

/-- 30 R60: an encoding stands at `p` when its three parts stand one after the other. -/
theorem bytesAt_encode_iff {rd : Nat → Option Byte} {p : Nat} {i : Instr} (hA : i.operandA.wf = true) :
    bytesAt rd p (encode i) ↔ rd p = some (opcodeByte i) ∧ bytesAt rd (p + 1) (encodeOperand i.operandA) ∧
      ∀ b, i.operandB? = some b → bytesAt rd (p + 1 + i.operandA.size) (encodeOperand b) := by
  rw [encode, bytesAt_cons, bytesAt_append, encodeOperand_length hA]
  cases i.operandB? with
  | none => simp [bytesAt_nil]
  | some b => simp

/-- A well-formed instruction is decoded exactly where its bytes stand (30 R65, R69). -/
theorem decodeAt_eq_ok_iff_bytesAt {rd : Nat → Option Byte} {p : Nat} {i : Instr} (hw : i.wf = true) :
    decodeAt rd p = .ok i ↔ bytesAt rd p (encode i) := by
  obtain ⟨hA, hB⟩ := Instr.wf_iff.mp hw
  rw [decodeAt_eq_ok_iff, bytesAt_encode_iff hA, decodeOperand_eq_iff_bytesAt hA]
  exact and_congr_right fun _ => and_congr_right fun _ => forall₂_congr fun b hb =>
    decodeOperand_eq_iff_bytesAt (hB b hb)

/-- Settles O1: bytes in place are decoded, part by part. -/
theorem decodeEncodeRoundTrip : Obligations.DecodeEncodeRoundTrip := fun _ _ _ hw hbytes =>
  (decodeAt_eq_ok_iff_bytesAt hw).mpr hbytes

/-- Settles O2: a decoded instruction has its bytes in place, part by part. -/
theorem encodeDecodeRoundTrip : Obligations.EncodeDecodeRoundTrip := fun _ _ _ hdec hw =>
  (decodeAt_eq_ok_iff_bytesAt hw).mp hdec

theorem decode_encode {i : Instr} (hw : i.wf = true) : decode (encode i) = .ok i :=
  (decodeAt_eq_ok_iff_bytesAt hw).mpr fun k _ => by rw [Nat.zero_add]

/-- Settles O5: each word is the encoding of its well-formed instruction. -/
theorem writtenWordsDecode : Obligations.WrittenWordsDecode :=
  ⟨decode_encode (i := .add (.stk 1) (.stk 0)) rfl,
    decode_encode (i := .not (.reg 3)) rfl,
    decode_encode (i := .jgt (.imm32 0x2000)) rfl,
    decode_encode (i := .str (.mem 0x2004) (.reg 3)) rfl,
    decode_encode (i := .cons (.reg 0) (.imm8 20)) rfl,
    decode_encode (i := .pop (.mem 0x2000)) rfl,
    decode_encode (i := .out (.reg 0) (.reg 1)) rfl⟩

/-- Settles O3: one byte of opcode and 2 or 5 for each operand. -/
theorem instructionLengths : Obligations.InstructionLengths := by
  intro i hw
  obtain ⟨hA, hB⟩ := Instr.wf_iff.mp hw
  have hsizeA := Operand.size_of_wf hA
  constructor
  · intro hnone
    rw [Laws.EncodedSize.one rfl hnone hw, Instr.size, hnone, Option.map_none, Option.getD_none]
    omega
  · intro b hb
    have hsizeB := Operand.size_of_wf (hB b hb)
    rw [Laws.EncodedSize.two rfl hb hw, Instr.size, hb, Option.map_some, Option.getD_some]
    omega

end Sys2Proof.Machine

/-! SUPPORT. Proofs about fetch and operands: `DecodeOperand` by tag (40 R86), the write-back (40 R87 to R89), and
what a step does by the run test and the byte at pc (40 R80 to R82). -/

namespace Sys2Proof.Machine

open Sys2Proof

/-! ## Descriptors that are cut short -/

theorem decodeOperand_noTag {rd : Nat → Option Byte} {p : Nat} (h : rd p = none) : decodeOperand rd p = .noTag := by
  simp only [decodeOperand, h]

/-- The payload of an IMM8, a REG or a STK descriptor is one byte (30 R63). -/
theorem decodeOperand_noByte {rd : Nat → Option Byte} {p : Nat} {tag : Byte} (htag : rd p = some tag)
    (hkind : tag = tagImm8 ∨ tag = tagReg ∨ tag = tagStk) (hbyte : rd (p + 1) = none) :
    decodeOperand rd p = .noPayload := by
  rcases hkind with rfl | rfl | rfl <;> simp only [decodeOperand, htag, hbyte] <;> rfl

/-- The payload of an IMM32 or a MEM descriptor is one word (30 R63). -/
theorem decodeOperand_noWord {rd : Nat → Option Byte} {p : Nat} {tag : Byte} (htag : rd p = some tag)
    (hkind : tag = tagImm32 ∨ tag = tagMem) (hword : wordAt? rd (p + 1) = none) :
    decodeOperand rd p = .noPayload := by
  rcases hkind with rfl | rfl <;> simp only [decodeOperand, htag, hword] <;> rfl

/-! ## The word a payload spells is the word `MemRead` reads -/

theorem State.memRead4_of_wordAt?_none {s : State} {a : Nat} (h : wordAt? s.byteAt? a = none) :
    s.memRead4 a = .error (boundsRaise a) := by
  rw [State.wordAt?_byteAt, ite_eq_left_iff] at h
  exact if_pos (by simpa using h)

theorem State.memRead4_of_wordAt?_some {s : State} {a : Nat} {v : Word} (h : wordAt? s.byteAt? a = some v) :
    s.memRead4 a = .ok v := by
  rw [State.wordAt?_byteAt, Option.ite_none_left_eq_some] at h
  obtain ⟨hbound, hv⟩ := h
  exact State.memRead4_ok.mpr ⟨by omega, (Option.some.inj hv).symm⟩

/-! ## `DecodeOperand` -/

theorem State.readOperand_stk (s : State) (k : Byte) (a : Nat) :
    s.readOperand (.stk k) a = s.memRead4 ((s.sp.toNat + 4 * k.toNat) % 2 ^ 32) := by
  rw [State.readOperand, State.stkAddr_toNat]

theorem State.decodeOperandAt_eq {s : State} {a : Nat} {o : Operand} (ho : s.operandAt a = o) :
    s.decodeOperandAt a = (s.readOperand o a).map fun v => (v, o.size) := by
  rw [State.decodeOperandAt, ho]

theorem State.decodeOperandAt_eq_error {s : State} {a : Nat} {e : Raise} :
    s.decodeOperandAt a = .error e ↔ s.readOperand (s.operandAt a) a = .error e := by
  rw [State.decodeOperandAt]
  cases s.readOperand (s.operandAt a) a <;> simp [Except.map]

theorem State.decodeOperandAt_eq_ok {s : State} {a n : Nat} {w : Word} :
    s.decodeOperandAt a = .ok (w, n) ↔
      s.readOperand (s.operandAt a) a = .ok w ∧ (s.operandAt a).size = n := by
  rw [State.decodeOperandAt]
  cases s.readOperand (s.operandAt a) a <;> simp [Except.map]

/-- Settles O8: the tag fixes the form of the descriptor, and the form its value, its length and its faults. -/
theorem decodeOperandByTag : Obligations.DecodeOperandByTag := by
  intro s a
  cases htag : s.byteAt? a with
  | none => exact State.decodeOperandAt_error (decodeOperand_noTag htag) rfl
  | some tag =>
    dsimp only
    split
    next hn =>
      obtain rfl : tag = tagImm8 := BitVec.eq_of_toNat_eq hn
      cases hi : s.byteAt? (a + 1) with
      | none => exact State.decodeOperandAt_error (decodeOperand_noByte htag (.inl rfl) hi) rfl
      | some i => exact State.decodeOperandAt_eq (decodeOperand_imm8 htag hi)
    next hn =>
      obtain rfl : tag = tagImm32 := BitVec.eq_of_toNat_eq hn
      cases hi : wordAt? s.byteAt? (a + 1) with
      | none =>
        rw [State.memRead4_of_wordAt?_none hi]
        exact State.decodeOperandAt_error (decodeOperand_noWord htag (.inl rfl) hi) rfl
      | some i =>
        rw [State.memRead4_of_wordAt?_some hi]
        exact State.decodeOperandAt_eq (decodeOperand_imm32 htag hi)
    next hn =>
      obtain rfl : tag = tagReg := BitVec.eq_of_toNat_eq hn
      cases hr : s.byteAt? (a + 1) with
      | none => exact State.decodeOperandAt_error (decodeOperand_noByte htag (.inr (.inl rfl)) hr) rfl
      | some r =>
        have hreg := decodeOperand_reg htag hr
        by_cases h8 : 8 ≤ r.toNat
        · rw [State.decodeOperandAt_error hreg (if_neg h8.not_gt)]
          exact (if_pos h8).symm
        · rw [State.decodeOperandAt_eq hreg, State.readOperand, if_pos (not_le.mp h8)]
          exact (if_neg h8).symm
    next hn =>
      obtain rfl : tag = tagMem := BitVec.eq_of_toNat_eq hn
      cases haddr : wordAt? s.byteAt? (a + 1) with
      | none =>
        rw [State.memRead4_of_wordAt?_none haddr]
        exact State.decodeOperandAt_error (decodeOperand_noWord htag (.inr rfl) haddr) rfl
      | some addr =>
        rw [State.memRead4_of_wordAt?_some haddr]
        exact State.decodeOperandAt_eq (decodeOperand_mem htag haddr)
    next hn =>
      obtain rfl : tag = tagStk := BitVec.eq_of_toNat_eq hn
      cases hk : s.byteAt? (a + 1) with
      | none => exact State.decodeOperandAt_error (decodeOperand_noByte htag (.inr (.inr rfl)) hk) rfl
      | some k =>
        rw [State.decodeOperandAt_eq (decodeOperand_stk htag hk), State.readOperand_stk]
        rfl
    next h1 h2 h3 h4 h5 =>
      rw [imp_false] at h1 h2 h3 h4 h5
      have hres : tag.toNat = 0 ∨ 5 < tag.toNat := by omega
      exact State.decodeOperandAt_error (decodeOperand_reserved htag hres) rfl

/-! ## The write-back -/

/-- Settles O9: a write-back is `putAt` of the descriptor, for one that decodes. -/
theorem writeBackWritesLocation : Obligations.WriteBackWritesLocation := by
  intro s a v
  constructor
  · intro e he
    exact State.writeBack_error v (State.decodeOperandAt_eq_error.mp he)
  · intro w n hok
    obtain ⟨hread, -⟩ := State.decodeOperandAt_eq_ok.mp hok
    rw [State.writeBack_eq hread]
    refine ⟨fun r ho => ?_, fun addr ho => ?_, fun k ho => ?_⟩
    · rw [ho]; rfl
    · rw [ho]; rfl
    · rw [ho, ← State.stkAddr_toNat]; rfl

/-- Settles O10: an immediate always decodes, and has no location. -/
theorem immediateWriteBackDiscarded : Obligations.ImmediateWriteBackDiscarded := by
  rintro s a v (⟨n, ho⟩ | ⟨n, ho⟩)
  · have hread : s.readOperand (s.operandAt a) a = .ok (n.setWidth 32) := by rw [ho]; rfl
    rw [State.writeBack_eq hread, ho]
    rfl
  · have hread : s.readOperand (s.operandAt a) a = .ok n := by rw [ho]; rfl
    rw [State.writeBack_eq hread, ho]
    rfl

/-! ## The step: one equation per outcome of the run test and of the fetch -/

theorem step_of_halted {s : State} (hrun : s.run ≠ .running) : step s = .next s :=
  if_pos (decide_eq_true hrun)

theorem step_of_running {s : State} (hrun : s.run = .running) :
    step s = if s.inRom then s.fetchThen fun i => exec i s else .next s.cleanHalt :=
  if_neg (by simp [State.isHalted, hrun])

theorem step_of_outsideRom {s : State} (hrun : s.run = .running) (hrom : s.inRom = false) :
    step s = .next s.cleanHalt := by
  rw [step_of_running hrun, hrom]
  rfl

theorem step_of_fetches {s : State} {i : Instr} (hrun : s.run = .running) (hrom : s.inRom = true)
    (hf : s.fetches i) : step s = exec i s := by
  rw [step_of_running hrun, if_pos hrom, State.fetchThen, hf]

theorem step_of_unknownOpcode {s : State} {op : Byte} (hrun : s.run = .running) (hrom : s.inRom = true)
    (hf : s.fetched = .error (.unknownOpcode op)) :
    step s = .next (s.raiseFault s.pc ⟨.unknownOpcode, op.setWidth 32⟩) := by
  rw [step_of_running hrun, if_pos hrom, State.fetchThen, hf]

/-- Settles O38: it is the equation of the branch of `step` that runs the fetched instruction. -/
theorem stepRunsFetched : Obligations.StepRunsFetched := fun _ _ hrun hrom hf => step_of_fetches hrun hrom hf

/-- 40 R81: the ROM image lies within Memory, so where the run test passes there is an opcode byte to fetch. -/
theorem State.Inv.exists_opcode {s : State} (h : s.Inv) (hrom : s.inRom = true) :
    ∃ op, s.byteAt? s.pc.toNat = some op := by
  have hfits := h.romFits
  obtain ⟨-, hpc⟩ := (State.inRom_eq_true hfits).mp hrom
  exact ⟨_, if_pos (hpc.trans_le hfits)⟩

/-- Settles O48: a fetch that cannot leave Memory gives an instruction, which always answers, or the fault of an
unknown opcode. -/
theorem stepAlwaysAnswers : Obligations.StepAlwaysAnswers := by
  intro s hinv
  by_cases hrun : s.run = .running
  · cases hrom : s.inRom with
    | false => exact ⟨_, step_of_outsideRom hrun hrom⟩
    | true =>
      obtain ⟨op, hop⟩ := hinv.exists_opcode hrom
      cases hshape : shapeOf op with
      | none => exact ⟨_, step_of_unknownOpcode hrun hrom (decodeAt_unknown hop hshape)⟩
      | some f =>
        rw [step_of_fetches hrun hrom (decodeAt_of_shapeOf hop hshape)]
        exact exec_next _ s
  · exact ⟨s, step_of_halted hrun⟩

end Sys2Proof.Machine

/-! SUPPORT. Proofs about the ALU (41): what each operation writes, as arithmetic on numbers or bit by bit, and the
frame of the instructions that only compute. One lemma per operation of `Machine/Alu.lean` says how an instruction
built on it answers. -/

namespace Sys2Proof.Machine

open Sys2Proof

/-! ## The results as numbers -/

/-- 41 R101: the difference of the two numbers, reduced modulo 2^32. -/
theorem Word.sub_eq_ofInt (x y : Word) : x - y = BitVec.ofInt 32 ((x.toNat : Int) - y.toNat) := by
  rw [BitVec.sub_eq_add_neg, Int.sub_eq_add_neg, BitVec.ofInt_add, BitVec.ofInt_neg, BitVec.ofInt_natCast,
    BitVec.ofInt_natCast, BitVec.ofNat_toNat, BitVec.ofNat_toNat, BitVec.setWidth_eq, BitVec.setWidth_eq]

/-- 41 R103: the low 32 bits of the product. -/
theorem Word.mul_eq_ofNat (x y : Word) : x * y = BitVec.ofNat 32 (x.toNat * y.toNat) := by
  rw [BitVec.ofNat_mul, BitVec.ofNat_toNat, BitVec.ofNat_toNat, BitVec.setWidth_eq, BitVec.setWidth_eq]

/-- 41 R104: the remainder in the rule's own form. -/
theorem Word.umod_eq_ofNat (x y : Word) :
    x % y = BitVec.ofNat 32 (x.toNat - y.toNat * (x.toNat / y.toNat)) := by
  rw [BitVec.umod_def, Nat.mod_eq_sub]

/-- 41 R108: inverting every bit subtracts from 0xFFFFFFFF. -/
theorem Word.not_eq_ofNat (x : Word) : ~~~x = BitVec.ofNat 32 (0xFFFFFFFF - x.toNat) := by
  have hnat : (~~~x).toNat = 0xFFFFFFFF - x.toNat := BitVec.toNat_not
  rw [← hnat, BitVec.ofNat_toNat, BitVec.setWidth_eq]

/-! ## One lemma per operation -/

section
variable {i : Instr} {s : State} {a b : Operand} {f : Word → Word → Word} {va vb : Word}

theorem exec_pureOp (he : exec i s = templateW2 a b (pureOp f) s) (hi : i.operandA = a) (hf : s.fetches i)
    (ha : s.readsA a va) (hb : s.readsB a b vb) :
    exec i s = .next ((s.putAt a (f va vb)).setPc (s.nextAfter2 a b)) :=
  templateW2_done he hi hf ha hb rfl rfl rfl rfl rfl

theorem exec_unlessZero (he : exec i s = templateW2 a b (unlessZero f) s) (hi : i.operandA = a)
    (hf : s.fetches i) (ha : s.readsA a va) (hb : s.readsB a b vb) (h0 : vb ≠ 0) :
    exec i s = .next ((s.putAt a (f va vb)).setPc (s.nextAfter2 a b)) :=
  templateW2_done he hi hf ha hb (unlessZero_ok s h0) rfl rfl rfl rfl

/-- 41 R110: the fault comes after both operands are decoded and before the write-back. -/
theorem exec_unlessZero_zero (he : exec i s = templateW2 a b (unlessZero f) s) (ha : s.readsA a va)
    (hb : s.readsB a b 0) : exec i s = .next (s.raiseFault s.pc ⟨.divisionByZero, 0⟩) := by
  rw [he, templateW2_ok ha hb, unlessZero_zero, State.finishWrite_raised]

end

/-! ## The instructions -/

/-- Settles O11: the sum of the words is the sum of the numbers modulo 2^32. -/
theorem addWritesSum : Obligations.AddWritesSum := by
  intro a b s
  refine ⟨rfl, takesOperandFaults_two rfl rfl rfl, fun hf va vb ha hb => ?_⟩
  rw [← BitVec.add_def]
  exact exec_pureOp rfl rfl hf ha hb

/-- Settles O12: the difference of the words is that of the numbers modulo 2^32. -/
theorem subWritesDifference : Obligations.SubWritesDifference := by
  intro a b s
  refine ⟨rfl, takesOperandFaults_two rfl rfl rfl, fun hf va vb ha hb => ?_⟩
  rw [← Word.sub_eq_ofInt]
  exact exec_pureOp rfl rfl hf ha hb

/-- Settles O13: the quotient where B is not 0, and the operation's own raise where it is. -/
theorem divWritesQuotient : Obligations.DivWritesQuotient := by
  intro a b s
  refine ⟨rfl, takesOperandFaults_two rfl rfl rfl, fun hf va vb ha hb h0 => ?_, fun va ha hb => ?_⟩
  · rw [← BitVec.udiv_def]
    exact exec_unlessZero rfl rfl hf ha hb h0
  · exact exec_unlessZero_zero rfl ha hb

/-- Settles O14: the product of the words is the low 32 bits of the product of the numbers. -/
theorem mulWritesLowProduct : Obligations.MulWritesLowProduct := by
  intro a b s
  refine ⟨rfl, takesOperandFaults_two rfl rfl rfl, fun hf va vb ha hb => ?_⟩
  rw [← Word.mul_eq_ofNat]
  exact exec_pureOp rfl rfl hf ha hb

/-- Settles O15: the remainder where B is not 0, and the operation's own raise where it is. -/
theorem modWritesRemainder : Obligations.ModWritesRemainder := by
  intro a b s
  refine ⟨rfl, takesOperandFaults_two rfl rfl rfl, fun hf va vb ha hb h0 => ?_, fun va ha hb => ?_⟩
  · rw [← Word.umod_eq_ofNat]
    exact exec_unlessZero rfl rfl hf ha hb h0
  · exact exec_unlessZero_zero rfl ha hb

/-- Settles O16: the word written is `va &&& vb`. -/
theorem andWritesBitwiseAnd : Obligations.AndWritesBitwiseAnd := fun _ _ _ =>
  ⟨rfl, takesOperandFaults_two rfl rfl rfl, fun hf va vb ha hb =>
    ⟨va &&& vb, fun _ _ => BitVec.getLsbD_and, exec_pureOp rfl rfl hf ha hb⟩⟩

/-- Settles O17: the word written is `va ||| vb`. -/
theorem orWritesBitwiseOr : Obligations.OrWritesBitwiseOr := fun _ _ _ =>
  ⟨rfl, takesOperandFaults_two rfl rfl rfl, fun hf va vb ha hb =>
    ⟨va ||| vb, fun _ _ => BitVec.getLsbD_or, exec_pureOp rfl rfl hf ha hb⟩⟩

/-- Settles O18: the word written is `va ^^^ vb`. -/
theorem xorWritesBitwiseXor : Obligations.XorWritesBitwiseXor := fun _ _ _ =>
  ⟨rfl, takesOperandFaults_two rfl rfl rfl, fun hf va vb ha hb =>
    ⟨va ^^^ vb, fun _ _ => BitVec.getLsbD_xor, exec_pureOp rfl rfl hf ha hb⟩⟩

/-- Settles O19: the word written is `~~~va`, which is the difference as a number. -/
theorem notWritesComplement : Obligations.NotWritesComplement := by
  intro a s
  refine ⟨rfl, takesOperandFaults_one rfl rfl rfl, fun hf va ha => ?_⟩
  rw [← Word.not_eq_ofNat]
  exact templateW1_done rfl rfl hf ha rfl rfl rfl rfl rfl

/-! ## The frame -/

/-- `t` is `s` but for the location `l`, pc and the halt: what an instruction that only computes may change. -/
def State.sameButLoc (s t : State) (l : Loc) : Prop :=
  s.sameFlags t ∧ t.sp = s.sp ∧ t.hp = s.hp ∧ t.trace = s.trace ∧ s.onlyAt t l

theorem State.sameButLoc_raiseFault (s : State) (opAt : Word) (e : Raise) (l : Loc) :
    s.sameButLoc (s.raiseFault opAt e) l :=
  ⟨⟨rfl, rfl, rfl, rfl⟩, rfl, rfl, rfl, State.onlyAt_same l rfl rfl⟩

section
variable {i : Instr} {s t : State}

/-- An operation that leaves the state alone ends in its raise, or in what the write-back of its value changes. -/
theorem finishWrite_sameButLoc {nx : Word} {r : OpResult Word} (hf : s.fetches i) (hr : r.state = s)
    (h : s.finishWrite nx r = .next t) : s.sameButLoc t (s.locOf i.operandA) := by
  cases r with
  | raised e s1 =>
    obtain rfl : s1 = s := hr
    cases h
    exact State.sameButLoc_raiseFault s1 s1.pc e _
  | done v s1 =>
    obtain rfl : s1 = s := hr
    obtain ⟨hloc, hflags, hsp, hhp, htrace⟩ := finishWrite_frame hf rfl rfl h
    exact ⟨hflags, hsp, hhp, htrace, hloc⟩

theorem templateW2_sameButLoc {a b : Operand} {op : Word → Word → State → OpResult Word} (hf : s.fetches i)
    (hop : ∀ va vb, (op va vb s).state = s) (h : templateW2 a b op s = .next t) :
    s.sameButLoc t (s.locOf i.operandA) := by
  rcases templateW2_cases h with ⟨e, rfl⟩ | ⟨va, vb, -, -, hend⟩
  · exact State.sameButLoc_raiseFault s s.pc e _
  · exact finishWrite_sameButLoc hf (hop va vb) hend

theorem templateW1_sameButLoc {a : Operand} {op : Word → State → OpResult Word} (hf : s.fetches i)
    (hop : ∀ va, (op va s).state = s) (h : templateW1 a op s = .next t) :
    s.sameButLoc t (s.locOf i.operandA) := by
  rcases templateW1_cases h with ⟨e, rfl⟩ | ⟨va, -, hend⟩
  · exact State.sameButLoc_raiseFault s s.pc e _
  · exact finishWrite_sameButLoc hf (hop va) hend

end

/-- Settles O51: the operation of each of these instructions leaves the state alone, so what is left is how its
template ends. -/
theorem computeFrame : Obligations.ComputeFrame := by
  intro i a b s t hi hf h
  rcases hi with rfl | rfl | rfl | rfl | rfl | rfl | rfl | rfl | rfl | rfl | rfl
  · exact templateW2_sameButLoc hf (fun _ _ => rfl) h
  · exact templateW2_sameButLoc hf (fun _ _ => rfl) h
  · exact templateW2_sameButLoc hf (fun va vb => unlessZero_state _ va vb s) h
  · exact templateW2_sameButLoc hf (fun _ _ => rfl) h
  · exact templateW2_sameButLoc hf (fun va vb => unlessZero_state _ va vb s) h
  · exact templateW2_sameButLoc hf (fun _ _ => rfl) h
  · exact templateW2_sameButLoc hf (fun _ _ => rfl) h
  · exact templateW2_sameButLoc hf (fun _ _ => rfl) h
  · exact templateW1_sameButLoc hf (fun _ => rfl) h
  · exact templateW1_sameButLoc hf (fun _ => fieldOp_state _ s) h
  · exact templateW1_sameButLoc hf (fun _ => fieldOp_state _ s) h

end Sys2Proof.Machine

/-! SUPPORT. Proofs about compare and the jumps (42): one lemma says how a taken and one how an untaken jump
answers, whatever its condition, and one per template says how it can end; the frames follow from the ends. -/

namespace Sys2Proof.Machine

open Sys2Proof

/-! ## The conditions -/

/-- 42 R125: `jgt` asks for both flags to be 0. -/
theorem takenJgt_eq_true {s : State} : takenJgt s = true ↔ s.ltFlag = false ∧ s.eqFlag = false := by
  simp [takenJgt]

theorem takenJgt_eq_false {s : State} : takenJgt s = false ↔ s.ltFlag = true ∨ s.eqFlag = true := by
  rw [← Bool.not_eq_true, takenJgt_eq_true, not_and_or, Bool.not_eq_false, Bool.not_eq_false]

/-- 42 R123: `jne` asks for EQ to be 0. -/
theorem takenJne_eq_true {s : State} : takenJne s = true ↔ s.eqFlag = false := by
  simp [takenJne]

theorem takenJne_eq_false {s : State} : takenJne s = false ↔ s.eqFlag = true := by
  simp [takenJne]

/-! ## How the templates answer and how they end -/

section
variable {i : Instr} {s t : State} {a b : Operand} {taken : State → Bool} {va : Word}

theorem exec_jump_taken (he : exec i s = templateJump a taken s) (ha : s.readsA a va) (ht : taken s = true) :
    exec i s = .next (s.setPc va) := by
  rw [he, templateJump_ok taken ha, if_pos ht]

/-- 42 R126: the operand of an untaken jump is decoded too, and pc goes past it. -/
theorem exec_jump_untaken (he : exec i s = templateJump a taken s) (ha : s.readsA a va) (ht : taken s = false) :
    exec i s = .next (s.setPc (s.nextAfter1 a)) := by
  rw [he, templateJump_ok taken ha, if_neg (ne_true_of_eq_false ht)]

/-- How a jump can end: a fault of its operand, or a move of pc. -/
theorem templateJump_cases (h : templateJump a taken s = .next t) :
    (∃ e, t = s.raiseFault s.pc e) ∨ ∃ p, t = s.setPc p := by
  cases ha : s.readOperand a s.start with
  | error e => rw [templateJump, State.withA_error _ ha] at h; cases h; exact .inl ⟨e, rfl⟩
  | ok va => rw [templateJump_ok taken ha] at h; cases h; exact .inr ⟨_, rfl⟩

/-- How template N2 can end: a fault of an operand, or the end of the operation on the two values. -/
theorem templateN2_cases {op : Word → Word → State → OpResult Unit} (h : templateN2 a b op s = .next t) :
    (∃ e, t = s.raiseFault s.pc e) ∨
    ∃ va vb, s.readsA a va ∧ s.readsB a b vb ∧ s.finishPlain (s.nextAfter2 a b) (op va vb s) = .next t := by
  cases ha : s.readOperand a s.start with
  | error e => rw [templateN2, State.withAB_errorA _ ha] at h; cases h; exact .inl ⟨e, rfl⟩
  | ok va =>
    cases hb : s.readOperand b (s.start + a.size) with
    | error e => rw [templateN2, State.withAB_errorB _ ha hb] at h; cases h; exact .inl ⟨e, rfl⟩
    | ok vb => rw [templateN2_ok ha hb] at h; exact .inr ⟨va, vb, ha, hb, h⟩

/-- 42 R126: whichever way a jump ends, it writes no field but those of pc and the halt. -/
theorem templateJump_sameButHalt (h : templateJump a taken s = .next t) : s.sameButHalt t := by
  rcases templateJump_cases h with ⟨e, rfl⟩ | ⟨p, rfl⟩
  · exact rfl
  · exact rfl

end

/-! ## The instructions -/

/-- Settles O20: where both operands decode, the operation sets the flags and the template's end moves pc. The order
of two words is by definition that of their numbers. -/
theorem cmpSetsFlags : Obligations.CmpSetsFlags := by
  intro a b s
  refine ⟨rfl, takesOperandFaults_two rfl rfl rfl, fun va vb ha hb => ?_⟩
  have hexec : exec (.cmp a b) s = .next ((s.setFlags va vb).setPc (s.nextAfter2 a b)) :=
    templateN2_ok (op := cmpOp) ha hb
  exact hexec

/-- Settles O21: `jmp` is a jump that is always taken. -/
theorem jmpSetsPc : Obligations.JmpSetsPc := fun _ _ =>
  ⟨rfl, takesOperandFaults_one rfl rfl rfl, fun _ ha => exec_jump_taken (taken := takenJmp) rfl ha rfl⟩

/-- Settles O22: the condition of `je` is the flag EQ itself. -/
theorem jeJumpsIffEqual : Obligations.JeJumpsIffEqual := fun _ _ =>
  ⟨rfl, takesOperandFaults_one rfl rfl rfl, fun _ ha =>
    ⟨exec_jump_taken (taken := takenJe) rfl ha, exec_jump_untaken (taken := takenJe) rfl ha⟩⟩

/-- Settles O23: the condition of `jne` is EQ negated. -/
theorem jneJumpsIffNotEqual : Obligations.JneJumpsIffNotEqual := fun _ _ =>
  ⟨rfl, takesOperandFaults_one rfl rfl rfl, fun _ ha =>
    ⟨fun h => exec_jump_taken rfl ha (takenJne_eq_true.mpr h),
      fun h => exec_jump_untaken rfl ha (takenJne_eq_false.mpr h)⟩⟩

/-- Settles O24: the condition of `jlt` is the flag LT itself. -/
theorem jltJumpsIffLess : Obligations.JltJumpsIffLess := fun _ _ =>
  ⟨rfl, takesOperandFaults_one rfl rfl rfl, fun _ ha =>
    ⟨exec_jump_taken (taken := takenJlt) rfl ha, exec_jump_untaken (taken := takenJlt) rfl ha⟩⟩

/-- Settles O25: `jgt` is taken exactly if both flags are 0, and untaken exactly if one is set. -/
theorem jgtJumpsIffGreater : Obligations.JgtJumpsIffGreater := fun _ _ =>
  ⟨rfl, takesOperandFaults_one rfl rfl rfl, fun _ ha =>
    ⟨fun h => exec_jump_taken rfl ha (takenJgt_eq_true.mpr h),
      fun h => exec_jump_untaken rfl ha (takenJgt_eq_false.mpr h)⟩⟩

/-! ## The frames -/

/-- Settles O52: the five instructions are one template, whose condition its frame does not depend on. -/
theorem jumpFrame : Obligations.JumpFrame := by
  intro i a s t hi h
  rcases hi with rfl | rfl | rfl | rfl | rfl <;> exact templateJump_sameButHalt h

/-- Settles O53: `cmp` ends in an operand's fault, or in the two flags and the move of pc. -/
theorem cmpFrame : Obligations.CmpFrame := by
  intro a b s t h
  rcases templateN2_cases (op := cmpOp) h with ⟨e, rfl⟩ | ⟨va, vb, -, -, hend⟩
  · rfl
  · cases hend
    rfl

end Sys2Proof.Machine

/-! SUPPORT. Proofs about load and store (43): what `ldr` and `str` answer where their operands decode, and the
frames of `ldr`, `in` and `str`. The write-back's part of a frame is one lemma for any operation that is done. -/

namespace Sys2Proof.Machine

open Sys2Proof

/-! ## The frame of a write-back -/

theorem State.sameButLoc_putAt (s : State) (o : Operand) (v p : Word) :
    s.sameButLoc ((s.putAt o v).setPc p) (s.locOf o) :=
  ⟨⟨by simp, by simp, by simp, by simp⟩, by simp, by simp, by simp, s.onlyAt_putAt o v⟩

/-- 40 R91: after a done operation, the end of the instruction changes at most the location of the descriptor that
stands at `start` in the state the operation left. -/
theorem finishWrite_done_sameButLoc {s s1 t : State} {nx v : Word} (h : s.finishWrite nx (.done v s1) = .next t) :
    s1.sameButLoc t (s1.locOf (s1.operandAt s.start)) := by
  rcases finishWrite_cases h with ⟨e, rfl⟩ | rfl
  · exact s1.sameButLoc_raiseFault s.pc e _
  · exact s1.sameButLoc_putAt _ v nx

/-! ## `ldr` -/

/-- Settles O26: the bus read is done by a device or by Memory and leaves what the write-back depends on alone, or
it is raised. -/
theorem ldrReadsBus : Obligations.LdrReadsBus := by
  intro a b s
  refine ⟨rfl, takesOperandFaults_two rfl rfl rfl, fun va vb ha hb => ⟨fun hf hdev => ?_, fun hf hdev hm => ?_,
    fun hdev hm => ?_⟩⟩
  · exact ⟨_, templateW2_done rfl rfl hf ha hb (loadOp_device va hdev) rfl rfl rfl rfl⟩
  · exact templateW2_done rfl rfl hf ha hb (loadOp_memory va hdev hm) rfl rfl rfl rfl
  · have hexec : exec (.ldr a b) s = s.finishWrite (s.nextAfter2 a b) (loadOp va vb s) := templateW2_ok ha hb
    rw [hexec, loadOp_out va hdev hm, State.finishWrite_raised]

/-! ## `str` -/

section
variable {s t : State} {a b : Operand} {va vb : Word}

/-- 43 R131: a store that fits is done, and leaves the write-back of 0 to the end of the instruction. -/
theorem exec_str_fits (ha : s.readsA a va) (hb : s.readsB a b vb) (hm : va.toNat + 4 ≤ s.memTop) :
    exec (.str a b) s = s.finishWrite (s.nextAfter2 a b) (.done 0 (s.setWord va.toNat vb)) := by
  rw [← storeOp_ok vb hm]
  exact templateW2_ok ha hb

theorem exec_str_outside (ha : s.readsA a va) (hb : s.readsB a b vb) (hm : s.memTop < va.toNat + 4) :
    exec (.str a b) s = .next (s.raiseFault s.pc ⟨.outOfBounds, va⟩) := by
  rw [← State.finishWrite_raised s s (s.nextAfter2 a b), ← storeOp_out vb hm]
  exact templateW2_ok ha hb

/-- How `str` can end: a fault that changes nothing else, or the write-back of 0 after the store. -/
theorem exec_str_cases (h : exec (.str a b) s = .next t) :
    (∃ e, t = s.raiseFault s.pc e) ∨
    ∃ va vb, s.readsA a va ∧ s.readsB a b vb ∧
      s.finishWrite (s.nextAfter2 a b) (.done 0 (s.setWord va.toNat vb)) = .next t := by
  rcases templateW2_cases (op := storeOp) h with hfault | ⟨va, vb, ha, hb, -⟩
  · exact .inl hfault
  · by_cases hm : va.toNat + 4 ≤ s.memTop
    · exact .inr ⟨va, vb, ha, hb, (exec_str_fits ha hb hm).symm.trans h⟩
    · rw [exec_str_outside ha hb (not_le.mp hm)] at h
      cases h
      exact .inl ⟨_, rfl⟩

end

/-- Settles O27: the store raises, or it is done and the descriptor that then stands at `start` decides the end. -/
theorem strStoresThenZeroes : Obligations.StrStoresThenZeroes := by
  intro a b s
  refine ⟨rfl, takesOperandFaults_two rfl rfl rfl, fun va vb ha hb => ⟨exec_str_outside ha hb, fun hm =>
    ⟨fun w hread => ?_, fun e hfault => ?_⟩⟩⟩
  · rw [exec_str_fits ha hb hm, State.finishWrite_done hread]
  · rw [exec_str_fits ha hb hm, State.finishWrite_fault hfault]

/-- Settles O28: a store that misses the first descriptor leaves operand A standing at `start`, and A still decodes,
since whether it does depends on neither Memory's bytes nor the slots. -/
theorem strZeroesAddressOperand : Obligations.StrZeroesAddressOperand := by
  intro a b s va vb hf ha hb hm hmiss
  have hstands : (s.setWord va.toNat vb).operandAt s.start = a := State.operandAt_setWord hf.operandA ha hmiss
  obtain ⟨w, hread⟩ : ∃ w, (s.setWord va.toNat vb).readOperand a s.start = .ok w :=
    State.readOperand_ok_of (s := s) rfl rfl ha
  rw [exec_str_fits ha hb hm, State.finishWrite_done (by rw [hstands]; exact hread), hstands]

/-! ## The frames -/

/-- `t` is `s` after at most one read of the outside (20 R35). -/
def State.readsAtMostOne (s t : State) : Prop := t = s ∨ ∃ e, t = s.recordRead e

/-- 20 R42: only a device's answer is recorded. -/
theorem loadOp_readsAtMostOne (a b : Word) (s : State) : s.readsAtMostOne (loadOp a b s).state := by
  cases hdev : s.cfg.isDevice b with
  | true => rw [loadOp_device a hdev]; exact .inr ⟨_, rfl⟩
  | false =>
    by_cases hm : b.toNat + 4 ≤ s.memTop
    · rw [loadOp_memory a hdev hm]; exact .inl rfl
    · rw [loadOp_out a hdev (not_le.mp hm)]; exact .inl rfl

/-- 20 R47: the host's answer is recorded. -/
theorem inOp_readsAtMostOne (a b : Word) (s : State) : s.readsAtMostOne (inOp a b s).state := .inr ⟨_, rfl⟩

/-- A recorded read writes nothing a frame speaks of but the trace. -/
theorem State.readsAtMostOne.frame {s s1 t : State} {o : Operand} (hr : s.readsAtMostOne s1)
    (h : s1.sameButLoc t (s1.locOf o)) :
    s.sameFlags t ∧ t.sp = s.sp ∧ t.hp = s.hp ∧ s.onlyAt t (s.locOf o) := by
  obtain ⟨hflags, hsp, hhp, -, honly⟩ := h
  rcases hr with rfl | ⟨e, rfl⟩
  · exact ⟨hflags, hsp, hhp, honly⟩
  · rw [State.locOf_congr (s.recordRead_sp e)] at honly
    exact ⟨hflags, hsp, hhp, honly⟩

theorem State.readsAtMostOne.operandAt {s s1 : State} (hr : s.readsAtMostOne s1) (p : Nat) :
    s1.operandAt p = s.operandAt p := by
  rcases hr with rfl | ⟨e, rfl⟩
  · rfl
  · exact State.operandAt_congr rfl rfl p

/-- The frame of template W2 for an operation that reads the outside at most once and changes nothing else. -/
theorem templateW2_readFrame {i : Instr} {s t : State} {a b : Operand} {op : Word → Word → State → OpResult Word}
    (hf : s.fetches i) (hop : ∀ va vb, s.readsAtMostOne (op va vb s).state) (h : templateW2 a b op s = .next t) :
    s.sameFlags t ∧ t.sp = s.sp ∧ t.hp = s.hp ∧ s.onlyAt t (s.locOf i.operandA) := by
  rcases templateW2_cases h with ⟨e, rfl⟩ | ⟨va, vb, -, -, hend⟩
  · exact State.readsAtMostOne.frame (.inl rfl) (s.sameButLoc_raiseFault s.pc e _)
  · have hread := hop va vb
    generalize op va vb s = r at hread hend
    cases r with
    | raised e s1 =>
      cases hend
      exact hread.frame (s1.sameButLoc_raiseFault s.pc e _)
    | done v s1 =>
      rw [← hf.operandA, ← hread.operandAt]
      exact hread.frame (finishWrite_done_sameButLoc hend)

/-- Settles O55: `ldr` and `in` are template W2 with an operation that reads the outside at most once. -/
theorem loadInputFrame : Obligations.LoadInputFrame := by
  intro i a b s t hi hf h
  rcases hi with rfl | rfl
  · exact templateW2_readFrame hf (fun va vb => loadOp_readsAtMostOne va vb s) h
  · exact templateW2_readFrame hf (fun va vb => inOp_readsAtMostOne va vb s) h

/-- Settles O56: what the write-back leaves alone in the state after the store, the store left alone in `s`, but for
the word at A's value. -/
theorem strFrame : Obligations.StrFrame := by
  intro a b s t h
  rcases exec_str_cases h with ⟨e, rfl⟩ | ⟨va, vb, ha, hb, hend⟩
  · exact ⟨⟨rfl, rfl, rfl, rfl⟩, rfl, rfl, rfl, fun _ _ => rfl, fun _ _ _ => rfl⟩
  · obtain ⟨hflags, hsp, hhp, htrace, hslot, hbyte⟩ := finishWrite_done_sameButLoc hend
    refine ⟨hflags, hsp, hhp, htrace, fun r hr => hslot r (hr va vb ha hb), fun p hstore hloc => ?_⟩
    calc t.mem.get p = (s.setWord va.toNat vb).mem.get p := hbyte p fun addr => hloc va vb addr ha hb
      _ = s.mem.get p := s.get_setWord_other vb (hstore va ha)

end Sys2Proof.Machine

/-! SUPPORT. Proofs about heap cells (44): what `cons`, `car` and `cdr` answer where their operands decode, the cell
that `cons` leaves and what keeps it (44 R145), and the frame of `cons`. -/

namespace Sys2Proof.Machine

open Sys2Proof

/-! ## Words of Memory by their bytes -/

theorem State.wordAt_congr_bytes {s t : State} {a : Nat} (h : ∀ p, inWord a p → t.mem.get p = s.mem.get p) :
    t.wordAt a = s.wordAt a := by
  unfold inWord at h
  simp only [State.wordAt]
  rw [h a (by omega), h (a + 1) (by omega), h (a + 2) (by omega), h (a + 3) (by omega)]

/-! ## `car` and `cdr` -/

/-- 44 R143: the record of `cdr`'s fault keeps A + 4 modulo 2^32. -/
theorem boundsRaise_add_four (v : Word) : boundsRaise (v.toNat + 4) = ⟨.outOfBounds, v + 4⟩ := by
  rw [boundsRaise, BitVec.ofNat_add, BitVec.ofNat_toNat, BitVec.setWidth_eq]
  rfl

theorem boundsRaise_toNat (v : Word) : boundsRaise v.toNat = ⟨.outOfBounds, v⟩ := by
  rw [boundsRaise, BitVec.ofNat_toNat, BitVec.setWidth_eq]

section
variable {i : Instr} {s s1 : State} {a : Operand} {op : Word → State → OpResult Word} {va : Word}

/-- Template W1 whose operation raises: the fault, in the state the operation left. -/
theorem templateW1_raised {e : Raise} (he : exec i s = templateW1 a op s) (ha : s.readsA a va)
    (ho : op va s = .raised e s1) : exec i s = .next (s1.raiseFault s.pc e) := by
  rw [he, templateW1_ok ha, ho, State.finishWrite_raised]

theorem exec_car_inside (hf : s.fetches (.car a)) (ha : s.readsA a va) (hm : va.toNat + 4 ≤ s.memTop) :
    exec (.car a) s = .next ((s.putAt a (s.wordAt va.toNat)).setPc (s.nextAfter1 a)) :=
  templateW1_done (op := carOp) rfl rfl hf ha (fieldOp_ok hm) rfl rfl rfl rfl

theorem exec_cdr_inside (hf : s.fetches (.cdr a)) (ha : s.readsA a va) (hm : va.toNat + 8 ≤ s.memTop) :
    exec (.cdr a) s = .next ((s.putAt a (s.wordAt (va.toNat + 4))).setPc (s.nextAfter1 a)) :=
  templateW1_done (op := cdrOp) rfl rfl hf ha (fieldOp_ok hm) rfl rfl rfl rfl

end

/-- Settles O30: the read of the field is done and leaves the state alone, or it raises at A. -/
theorem carWritesFirstField : Obligations.CarWritesFirstField := by
  intro a s
  refine ⟨rfl, takesOperandFaults_one rfl rfl rfl, fun va ha => ⟨fun hf hm => exec_car_inside hf ha hm, fun hm => ?_⟩⟩
  rw [← boundsRaise_toNat]
  exact templateW1_raised (op := carOp) rfl ha (fieldOp_out hm)

/-- Settles O31: the field is the one at A + 4 as a number, and it ends 8 bytes past A. -/
theorem cdrWritesSecondField : Obligations.CdrWritesSecondField := by
  intro a s
  refine ⟨rfl, takesOperandFaults_one rfl rfl rfl, fun va ha => ⟨fun hf hm => exec_cdr_inside hf ha hm, fun hm => ?_⟩⟩
  rw [← boundsRaise_add_four]
  exact templateW1_raised (op := cdrOp) rfl ha (fieldOp_out hm)

/-! ## `cons` -/

/-- `s` after the operation of `cons` on a cell that fits (44 R140, R141): hp raised, the two fields at the old hp. -/
def State.withCell (s : State) (x y : Word) : State :=
  ((s.moveHp (s.hp + 8)).setWord s.hp.toNat x).setWord (s.hp.toNat + 4) y

theorem State.get_withCell_other (s : State) (x y : Word) {p : Nat} (h : p < s.hp.toNat ∨ s.hp.toNat + 8 ≤ p) :
    (s.withCell x y).mem.get p = s.mem.get p := by
  rw [State.withCell, State.get_setWord_other _ y (by unfold inWord; omega),
    State.get_setWord_other _ x (by unfold inWord; omega), State.moveHp_mem]

/-- The location of a descriptor depends on Memory and sp, not on hp. -/
theorem State.locOf_operandAt_withCell (s : State) (x y : Word) (p : Nat) :
    (s.withCell x y).locOf ((s.withCell x y).operandAt p) =
      ((s.setWord s.hp.toNat x).setWord (s.hp.toNat + 4) y).locOf
        (((s.setWord s.hp.toNat x).setWord (s.hp.toNat + 4) y).operandAt p) := by
  rw [State.operandAt_congr (s := (s.setWord s.hp.toNat x).setWord (s.hp.toNat + 4) y) rfl rfl]
  exact State.locOf_congr rfl _

section
variable {s t : State} {a b : Operand} {va vb : Word}

/-- 44 R141: a cell that fits is built, and leaves the write-back of its offset to the end of the instruction. -/
theorem exec_cons_fits (ha : s.readsA a va) (hb : s.readsB a b vb) (hm : s.hp.toNat + 8 ≤ s.memTop) :
    exec (.cons a b) s = s.finishWrite (s.nextAfter2 a b) (.done s.hp (s.withCell va vb)) := by
  rw [State.withCell, ← consOp_ok va vb hm]
  exact templateW2_ok ha hb

theorem exec_cons_exhausted (ha : s.readsA a va) (hb : s.readsB a b vb) (hm : s.memTop < s.hp.toNat + 8) :
    exec (.cons a b) s = .next (s.raiseFault s.pc ⟨.heapExhausted, s.hp⟩) := by
  rw [← State.finishWrite_raised s s (s.nextAfter2 a b), ← consOp_out va vb hm]
  exact templateW2_ok ha hb

/-- How `cons` can end: a fault that changes nothing else, or the write-back of hp after the cell is built. -/
theorem exec_cons_cases (h : exec (.cons a b) s = .next t) :
    (∃ e, t = s.raiseFault s.pc e) ∨
    ∃ va vb, s.readsA a va ∧ s.readsB a b vb ∧
      s.finishWrite (s.nextAfter2 a b) (.done s.hp (s.withCell va vb)) = .next t := by
  rcases templateW2_cases (op := consOp) h with hfault | ⟨va, vb, ha, hb, -⟩
  · exact .inl hfault
  · by_cases hm : s.hp.toNat + 8 ≤ s.memTop
    · exact .inr ⟨va, vb, ha, hb, (exec_cons_fits ha hb hm).symm.trans h⟩
    · rw [exec_cons_exhausted ha hb (not_le.mp hm)] at h
      cases h
      exact .inl ⟨_, rfl⟩

end

/-- Settles O29: the allocation raises, or the cell is built and the descriptor that then stands at `start` decides
the end. -/
theorem consBuildsCell : Obligations.ConsBuildsCell := by
  intro a b s
  refine ⟨rfl, takesOperandFaults_two rfl rfl rfl, fun va vb ha hb => ⟨exec_cons_exhausted ha hb, ?_⟩⟩
  rintro hm _ rfl
  exact ⟨fun w hread => (exec_cons_fits ha hb hm).trans (State.finishWrite_done hread),
    fun e hfault => (exec_cons_fits ha hb hm).trans (State.finishWrite_fault hfault)⟩

/-! ## The cell -/

/-- The eight bytes at `o` lie in Memory and are a cell of the fields `x` and `y` (44 R141, R144). -/
def State.holdsCell (s : State) (o x y : Word) : Prop :=
  o.toNat + 8 ≤ s.memTop ∧ s.wordAt o.toNat = x ∧ s.wordAt (o.toNat + 4) = y

theorem State.holdsCell_withCell (s : State) (x y : Word) (hm : s.hp.toNat + 8 ≤ s.memTop) :
    (s.withCell x y).holdsCell s.hp x y := by
  refine ⟨hm, ?_, State.wordAt_setWord _ _ y⟩
  rw [State.withCell, State.wordAt_setWord_other _ y (by omega), State.wordAt_setWord]

/-- A cell stays while its eight bytes do. -/
theorem State.holdsCell.congr {s t : State} {o x y : Word} (h : s.holdsCell o x y) (hc : t.cfg = s.cfg)
    (hm : ∀ p, o.toNat ≤ p → p < o.toNat + 8 → t.mem.get p = s.mem.get p) : t.holdsCell o x y := by
  obtain ⟨hfits, hfirst, hsecond⟩ := h
  refine ⟨(State.memTop_congr hc).symm ▸ hfits, ?_, ?_⟩
  · rw [← hfirst]
    exact State.wordAt_congr_bytes fun p hp => hm p hp.1 (by unfold inWord at hp; omega)
  · rw [← hsecond]
    exact State.wordAt_congr_bytes fun p hp => hm p (by unfold inWord at hp; omega) (by unfold inWord at hp; omega)

theorem State.holdsCell.exec_car {u : State} {c : Operand} {o x y : Word} (h : u.holdsCell o x y)
    (hf : u.fetches (.car c)) (hc : u.readsA c o) :
    exec (.car c) u = .next ((u.putAt c x).setPc (u.nextAfter1 c)) := by
  obtain ⟨hfits, rfl, -⟩ := h
  exact exec_car_inside hf hc (by omega)

theorem State.holdsCell.exec_cdr {u : State} {c : Operand} {o x y : Word} (h : u.holdsCell o x y)
    (hf : u.fetches (.cdr c)) (hc : u.readsA c o) :
    exec (.cdr c) u = .next ((u.putAt c y).setPc (u.nextAfter1 c)) := by
  obtain ⟨hfits, -, rfl⟩ := h
  exact exec_cdr_inside hf hc hfits

/-- Settles O32: the cell is there when the operation of `cons` is done, a write-back that misses it keeps it, and so
does everything up to the later state. -/
theorem consThenCarCdr : Obligations.ConsThenCarCdr := by
  rintro a b s _ va vb w ha hb hm rfl hread hmiss
  refine ⟨_, (exec_cons_fits ha hb hm).trans (State.finishWrite_done hread), fun c u hcfg hbytes hc => ?_⟩
  obtain ⟨-, hkept⟩ := (s.withCell va vb).onlyAt_putAt ((s.withCell va vb).operandAt s.start) s.hp
  have hcell : u.holdsCell s.hp va vb := by
    refine (s.holdsCell_withCell va vb hm).congr (hcfg.trans (State.putAt_cfg _ _ _)) fun p hlo hhi => ?_
    refine (hbytes p hlo hhi).trans (hkept p fun addr hloc hin => ?_)
    have hoff := hmiss addr hloc
    unfold inWord at hin
    omega
  exact ⟨fun hf => hcell.exec_car hf hc, fun hf => hcell.exec_cdr hf hc⟩

/-! ## The frame of `cons` -/

/-- Settles O57: what the write-back leaves alone in the state after the cell is built, the building left alone in
`s`, but for hp and the cell. -/
theorem consFrame : Obligations.ConsFrame := by
  intro a b s t h
  rcases exec_cons_cases h with ⟨e, rfl⟩ | ⟨va, vb, ha, hb, hend⟩
  · exact ⟨⟨rfl, rfl, rfl, rfl⟩, rfl, .inl rfl, rfl, fun _ _ => rfl, fun _ _ _ => rfl⟩
  · obtain ⟨hflags, hsp, hhp, htrace, hslot, hbyte⟩ := finishWrite_done_sameButLoc hend
    rw [State.locOf_operandAt_withCell] at hslot hbyte
    refine ⟨hflags, hsp, .inr hhp, htrace, fun r hr => hslot r (hr va vb _ ha hb rfl), fun p hcell hloc => ?_⟩
    calc t.mem.get p = (s.withCell va vb).mem.get p := hbyte p fun addr => hloc va vb _ addr ha hb rfl
      _ = s.mem.get p := s.get_withCell_other va vb hcell

end Sys2Proof.Machine

/-! SUPPORT. Proofs about the stack and the ports (45): what `push` and `pop` answer where their operand decodes, that
a `pop` after a `push` gets the pushed word back, what `in` and `out` record, and the frames of `push`, `pop` and
`out`. -/

namespace Sys2Proof.Machine

open Sys2Proof

/-! ## `push` -/

section
variable {s t : State} {a : Operand} {va : Word}

/-- 45 R150: with room below sp, sp is lowered and the word stored there. -/
theorem exec_push_room (ha : s.readsA a va) (h4 : 4 ≤ s.sp.toNat) (hm : s.sp.toNat ≤ s.memTop) :
    exec (.push a) s =
      .next (((s.moveSp (s.sp - 4)).setWord (s.sp.toNat - 4) va).setPc (s.nextAfter1 a)) := by
  rw [← State.finishPlain_done s, ← pushOp_ok va h4 hm]
  exact templateN1_ok ha

theorem exec_push_full (ha : s.readsA a va) (hlow : s.sp.toNat < 4) :
    exec (.push a) s = .next (s.raiseFault s.pc ⟨.stackOverflow, s.sp⟩) := by
  rw [← State.finishPlain_raised s s (s.nextAfter1 a), ← pushOp_low va hlow]
  exact templateN1_ok ha

/-- How template N1 can end: a fault of the operand, or the end of the operation on its value. -/
theorem templateN1_cases {op : Word → State → OpResult Unit} (h : templateN1 a op s = .next t) :
    (∃ e, t = s.raiseFault s.pc e) ∨
    ∃ va, s.readsA a va ∧ s.finishPlain (s.nextAfter1 a) (op va s) = .next t := by
  cases ha : s.readOperand a s.start with
  | error e => rw [templateN1, State.withA_error _ ha] at h; cases h; exact .inl ⟨e, rfl⟩
  | ok va => rw [templateN1_ok ha] at h; exact .inr ⟨va, ha, h⟩

/-- How `push` can end: a fault that changes nothing else, a fault with sp lowered (only with sp past Memory, which
10 R25 rules out), or the word stored at the lowered sp. -/
theorem exec_push_cases (h : exec (.push a) s = .next t) :
    (∃ e, t = s.raiseFault s.pc e) ∨
    (∃ e, t = (s.moveSp (s.sp - 4)).raiseFault s.pc e) ∨
    ∃ va, s.readsA a va ∧
      t = ((s.moveSp (s.sp - 4)).setWord (s.sp - 4).toNat va).setPc (s.nextAfter1 a) := by
  rcases templateN1_cases (op := pushOp) h with hfault | ⟨va, ha, hend⟩
  · exact .inl hfault
  rcases lt_or_ge s.sp.toNat 4 with hlow | h4
  · rw [pushOp_low va hlow] at hend
    cases hend
    exact .inl ⟨_, rfl⟩
  rcases lt_or_ge s.memTop s.sp.toNat with habove | hm
  · rw [pushOp_above va h4 habove] at hend
    cases hend
    exact .inr (.inl ⟨_, rfl⟩)
  · rw [pushOp_ok va h4 hm, ← sp_sub_four h4] at hend
    cases hend
    exact .inr (.inr ⟨va, ha, rfl⟩)

end

/-- Settles O33: the operation raises for want of room, or it is done. -/
theorem pushWritesTop : Obligations.PushWritesTop := fun _ _ =>
  ⟨rfl, takesOperandFaults_one rfl rfl rfl, fun _ ha => ⟨exec_push_full ha, exec_push_room ha⟩⟩

/-! ## `pop` -/

section
variable {s t : State} {a : Operand} {va : Word}

/-- 45 R151: the word at sp is taken off, and its write-back left to the end of the instruction. -/
theorem exec_pop_nonempty (ha : s.readsA a va) (hm : s.sp.toNat + 4 ≤ s.memTop) :
    exec (.pop a) s =
      s.finishWrite (s.nextAfter1 a) (.done (s.wordAt s.sp.toNat) (s.moveSp (s.sp + 4))) := by
  rw [← popOp_ok va hm]
  exact templateW1_ok ha

theorem exec_pop_empty (ha : s.readsA a va) (hempty : s.memTop < s.sp.toNat + 4) :
    exec (.pop a) s = .next (s.raiseFault s.pc ⟨.stackUnderflow, s.sp⟩) :=
  templateW1_raised (op := popOp) rfl ha (popOp_empty va hempty)

/-- How `pop` can end: a fault that changes nothing else, or the write-back of the word after sp is raised. -/
theorem exec_pop_cases (h : exec (.pop a) s = .next t) :
    (∃ e, t = s.raiseFault s.pc e) ∨
    s.finishWrite (s.nextAfter1 a) (.done (s.wordAt s.sp.toNat) (s.moveSp (s.sp + 4))) = .next t := by
  rcases templateW1_cases (op := popOp) h with hfault | ⟨va, ha, -⟩
  · exact .inl hfault
  rcases lt_or_ge s.memTop (s.sp.toNat + 4) with hempty | hm
  · rw [exec_pop_empty ha hempty] at h
    cases h
    exact .inl ⟨_, rfl⟩
  · exact .inr ((exec_pop_nonempty ha hm).symm.trans h)

/-- Moving sp leaves operand A standing at `start`. -/
theorem State.fetches.operandA_moveSp {i : Instr} (hf : s.fetches i) (v : Word) :
    (s.moveSp v).operandAt s.start = i.operandA :=
  (State.operandAt_congr (s.moveSp_cfg v) (s.moveSp_mem v) s.start).trans hf.operandA

/-- 45 R151, 40 R91: the word goes to the location A has with the raised sp. -/
theorem exec_pop_writes {w : Word} (hf : s.fetches (.pop a)) (ha : s.readsA a va) (hm : s.sp.toNat + 4 ≤ s.memTop)
    (hread : (s.moveSp (s.sp + 4)).readOperand a s.start = .ok w) :
    exec (.pop a) s =
      .next (((s.moveSp (s.sp + 4)).putAt a (s.wordAt s.sp.toNat)).setPc (s.nextAfter1 a)) := by
  have hstands : (s.moveSp (s.sp + 4)).operandAt s.start = a := hf.operandA_moveSp _
  rw [exec_pop_nonempty ha hm, State.finishWrite_done (by rw [hstands]; exact hread), hstands]

/-- 40 R91, 60 R171: A that no longer decodes with the raised sp faults, and sp stays raised. -/
theorem exec_pop_faults {e : Raise} (hf : s.fetches (.pop a)) (ha : s.readsA a va)
    (hm : s.sp.toNat + 4 ≤ s.memTop) (hread : (s.moveSp (s.sp + 4)).readOperand a s.start = .error e) :
    exec (.pop a) s = .next ((s.moveSp (s.sp + 4)).raiseFault s.pc e) := by
  have hstands : (s.moveSp (s.sp + 4)).operandAt s.start = a := hf.operandA_moveSp _
  rw [exec_pop_nonempty ha hm, State.finishWrite_fault (by rw [hstands]; exact hread)]

end

/-- Settles O34: the operation raises on an empty stack, or it is done and A's decode with the raised sp decides the
end. -/
theorem popReadsTop : Obligations.PopReadsTop := fun _ _ =>
  ⟨rfl, takesOperandFaults_one rfl rfl rfl, fun _ ha =>
    ⟨exec_pop_empty ha, fun hf hm => ⟨fun _ => exec_pop_writes hf ha hm, fun _ => exec_pop_faults hf ha hm⟩⟩⟩

/-- Settles O35: the pushed word is the one `pop` finds at its sp, and raising that sp undoes the push. -/
theorem pushThenPopCopies : Obligations.PushThenPopCopies := by
  intro a b s t va w0 w ha h4 hm hpush hf hb hread
  rw [exec_push_room ha h4 hm] at hpush
  cases hpush
  set t := ((s.moveSp (s.sp - 4)).setWord (s.sp.toNat - 4) va).setPc (s.nextAfter1 a)
  have hsp : t.sp.toNat = s.sp.toNat - 4 := sp_sub_four h4
  have hback : t.sp + 4 = s.sp := BitVec.sub_add_cancel s.sp 4
  have hroom : t.sp.toNat + 4 ≤ t.memTop := by
    rw [hsp, Nat.sub_add_cancel h4]
    exact hm
  have htop : t.wordAt t.sp.toNat = va := by
    rw [hsp]
    exact State.wordAt_setWord (s.moveSp (s.sp - 4)) (s.sp.toNat - 4) va
  rw [← hback] at hread ⊢
  rw [exec_pop_writes hf hb hroom hread, htop]

/-! ## `in` and `out` -/

/-- Settles O36: the port's answer is recorded, which leaves what the write-back depends on alone. -/
theorem inReadsPort : Obligations.InReadsPort := fun _ _ s =>
  ⟨rfl, takesOperandFaults_two rfl rfl rfl, fun hf _ vb ha hb =>
    ⟨Config.portAnswer s.draws vb, templateW2_done (op := inOp) rfl rfl hf ha hb rfl rfl rfl rfl rfl⟩⟩

/-- Settles O37: the operation records the write and the template's end moves pc. -/
theorem outWritesPort : Obligations.OutWritesPort := by
  intro a b s
  refine ⟨rfl, takesOperandFaults_two rfl rfl rfl, fun va vb ha hb => ?_⟩
  have hexec : exec (.out a b) s = .next ((s.ioWrite va vb).setPc (s.nextAfter2 a b)) :=
    templateN2_ok (op := outOp) ha hb
  exact hexec

/-! ## The frames -/

/-- Settles O54: `out` ends in an operand's fault, or in the recorded write and the move of pc. -/
theorem outFrame : Obligations.OutFrame := by
  intro a b s t h
  rcases templateN2_cases (op := outOp) h with ⟨e, rfl⟩ | ⟨va, vb, -, -, hend⟩
  · rfl
  · cases hend
    rfl

/-- Settles O58: of the three ends of `push`, only the store writes Memory, at the lowered sp. -/
theorem pushFrame : Obligations.PushFrame := by
  intro a s t h
  rcases exec_push_cases h with ⟨e, rfl⟩ | ⟨e, rfl⟩ | ⟨va, -, rfl⟩
  · exact ⟨⟨rfl, rfl, rfl, rfl⟩, .inl rfl, rfl, rfl, rfl, fun _ _ => rfl⟩
  · exact ⟨⟨rfl, rfl, rfl, rfl⟩, .inr rfl, rfl, rfl, rfl, fun _ _ => rfl⟩
  · exact ⟨⟨rfl, rfl, rfl, rfl⟩, .inr rfl, rfl, rfl, rfl,
      fun _ hout => (s.moveSp (s.sp - 4)).get_setWord_other va hout⟩

/-- Settles O59: `pop` takes a fault with nothing else changed, or it raises sp, and the write-back then changes at
most the location of A. -/
theorem popFrame : Obligations.PopFrame := by
  intro a s t hf h
  rcases exec_pop_cases h with ⟨e, rfl⟩ | hend
  · exact ⟨⟨rfl, rfl, rfl, rfl⟩, .inl rfl, rfl, rfl, State.onlyAt_same _ rfl rfl⟩
  · obtain ⟨hflags, hsp, hhp, htrace, honly⟩ := finishWrite_done_sameButLoc hend
    rw [hf.operandA_moveSp] at honly
    exact ⟨hflags, .inr hsp, hhp, htrace, honly⟩

end Sys2Proof.Machine

/-! SUPPORT. Proofs about exceptions (60): the clean halt (R168), the unknown opcode (R162), and what a faulting
instruction leaves alone (R171). The last is one rule per way an instruction ends, for any operation that raises
before it has changed anything. -/

namespace Sys2Proof.Machine

open Sys2Proof

/-! ## The halts of the step itself -/

/-- Settles O39: the first two clauses are equations of `step`, and the third is the run test where the image lies
within Memory. -/
theorem runTestHalts : Obligations.RunTestHalts := by
  intro s
  refine ⟨step_of_halted, fun hrun htest => step_of_outsideRom hrun (State.inRom_eq_false.mpr htest),
    fun hfits hpc => ?_⟩
  rw [← State.inRom_eq_false, ← Bool.not_eq_true, State.inRom_eq_true hfits]
  omega

/-- Settles O40: such a byte selects no shape, so the fetch ends in its fault. -/
theorem unknownOpcodeFaults : Obligations.UnknownOpcodeFaults := fun _ _ hrun hrom hop hrange =>
  ⟨_, step_of_unknownOpcode hrun hrom (decodeAt_unknown hop (shapeOf_unknown hrange)), rfl, rfl⟩

/-! ## Operations that raise before they change anything -/

/-- The result is a raise with the state still `s`, or it is done with a state of which `Done` holds. -/
def OpResult.raisesIn {α : Type} (s : State) (Done : State → Prop) : OpResult α → Prop
  | .done _ s1 => Done s1
  | .raised _ s1 => s1 = s

theorem OpResult.raisesIn_of_state {α : Type} {s : State} {Done : State → Prop} {r : OpResult α}
    (hr : r.state = s) (hs : Done s) : r.raisesIn s Done := by
  cases r with
  | done v s1 =>
    obtain rfl : s1 = s := hr
    exact hs
  | raised e s1 => exact hr

/-- A recorded read leaves alone all that an operand's decode depends on, and the run. -/
theorem State.readsAtMostOne.keeps {s s1 : State} (hr : s.readsAtMostOne s1) :
    s1.cfg = s.cfg ∧ s1.mem = s.mem ∧ s1.x = s.x ∧ s1.sp = s.sp ∧ s1.run = s.run := by
  rcases hr with rfl | ⟨e, rfl⟩
  · exact ⟨rfl, rfl, rfl, rfl, rfl⟩
  · exact ⟨rfl, rfl, rfl, rfl, rfl⟩

/-- 20 R42: the bus read raises only where no device answers, so before anything is recorded. -/
theorem loadOp_raisesIn (a b : Word) (s : State) : (loadOp a b s).raisesIn s s.readsAtMostOne := by
  cases hdev : s.cfg.isDevice b with
  | true => rw [loadOp_device a hdev]; exact .inr ⟨_, rfl⟩
  | false =>
    by_cases hm : b.toNat + 4 ≤ s.memTop
    · rw [loadOp_memory a hdev hm]; exact .inl rfl
    · rw [loadOp_out a hdev (not_le.mp hm)]; rfl

/-- 45 R150: with sp within Memory the store of `push` cannot fail, so its only raise comes before sp moves. -/
theorem pushOp_raisesIn {s : State} (v : Word) (hrun : s.run = .running) (hm : s.sp.toNat ≤ s.memTop) :
    (pushOp v s).raisesIn s (·.run = .running) := by
  rcases lt_or_ge s.sp.toNat 4 with hlow | h4
  · rw [pushOp_low v hlow]; rfl
  · rw [pushOp_ok v h4 hm]; exact hrun

/-! ## How instructions with such an operation end -/

/-- `t` is still running, or it is `s` but for the halt: what 60 R171 says of most instructions. -/
def State.runsOrSameButHalt (s t : State) : Prop := t.run = .running ∨ s.sameButHalt t

theorem State.runsOrSameButHalt_raiseFault (s : State) (opAt : Word) (e : Raise) :
    s.runsOrSameButHalt (s.raiseFault opAt e) := .inr rfl

section
variable {i : Instr} {s t : State} {a b : Operand}

/-- 40 R91: A decoded, and an operation that at most read the outside leaves it decoding, so the write-back cannot
fault: only the operation can. -/
theorem finishWrite_runsOrSameButHalt {nx va : Word} {r : OpResult Word} (hf : s.fetches i) (hrun : s.run = .running)
    (ha : s.readsA i.operandA va) (hr : r.raisesIn s s.readsAtMostOne) (h : s.finishWrite nx r = .next t) :
    s.runsOrSameButHalt t := by
  cases r with
  | raised e s1 =>
    obtain rfl : s1 = s := hr
    cases h
    exact s1.runsOrSameButHalt_raiseFault _ e
  | done v s1 =>
    obtain ⟨hc, hm, hx, hs, hrun1⟩ := State.readsAtMostOne.keeps hr
    rw [State.finishWrite_same hf ha hc hm hx hs] at h
    cases h
    left
    rw [State.setPc_run, State.putAt_run, hrun1, hrun]

theorem finishPlain_runsOrSameButHalt {nx : Word} {r : OpResult Unit} (hr : r.raisesIn s (·.run = .running))
    (h : s.finishPlain nx r = .next t) : s.runsOrSameButHalt t := by
  cases r with
  | raised e s1 =>
    obtain rfl : s1 = s := hr
    cases h
    exact s1.runsOrSameButHalt_raiseFault _ e
  | done v s1 =>
    cases h
    exact .inl hr

theorem templateW2_runsOrSameButHalt {op : Word → Word → State → OpResult Word} (hf : s.fetches i)
    (hrun : s.run = .running) (hop : ∀ va vb, (op va vb s).raisesIn s s.readsAtMostOne)
    (h : templateW2 i.operandA b op s = .next t) : s.runsOrSameButHalt t := by
  rcases templateW2_cases h with ⟨e, rfl⟩ | ⟨va, vb, ha, -, hend⟩
  · exact s.runsOrSameButHalt_raiseFault _ e
  · exact finishWrite_runsOrSameButHalt hf hrun ha (hop va vb) hend

theorem templateW1_runsOrSameButHalt {op : Word → State → OpResult Word} (hf : s.fetches i)
    (hrun : s.run = .running) (hop : ∀ va, (op va s).raisesIn s s.readsAtMostOne)
    (h : templateW1 i.operandA op s = .next t) : s.runsOrSameButHalt t := by
  rcases templateW1_cases h with ⟨e, rfl⟩ | ⟨va, ha, hend⟩
  · exact s.runsOrSameButHalt_raiseFault _ e
  · exact finishWrite_runsOrSameButHalt hf hrun ha (hop va) hend

theorem templateN2_runsOrSameButHalt {op : Word → Word → State → OpResult Unit}
    (hop : ∀ va vb, (op va vb s).raisesIn s (·.run = .running)) (h : templateN2 a b op s = .next t) :
    s.runsOrSameButHalt t := by
  rcases templateN2_cases h with ⟨e, rfl⟩ | ⟨va, vb, -, -, hend⟩
  · exact s.runsOrSameButHalt_raiseFault _ e
  · exact finishPlain_runsOrSameButHalt (hop va vb) hend

theorem templateN1_runsOrSameButHalt {op : Word → State → OpResult Unit}
    (hop : ∀ va, (op va s).raisesIn s (·.run = .running)) (h : templateN1 a op s = .next t) :
    s.runsOrSameButHalt t := by
  rcases templateN1_cases h with ⟨e, rfl⟩ | ⟨va, -, hend⟩
  · exact s.runsOrSameButHalt_raiseFault _ e
  · exact finishPlain_runsOrSameButHalt (hop va) hend

end

/-- Settles O42: but for `pop`, `str` and `cons`, whose write-back comes after a change, every operation raises
before it changes anything, and its template then ends running or with nothing but the halt changed. -/
theorem faultLeavesStateAlone : Obligations.FaultLeavesStateAlone := by
  intro i s t hf hm hrun h hhalt hpop hstr hcons
  have hself : s.readsAtMostOne s := .inl rfl
  suffices hend : s.runsOrSameButHalt t from hend.resolve_left hhalt
  cases i with
  | add a b | sub a b | mul a b | and a b | or a b | xor a b =>
    exact templateW2_runsOrSameButHalt hf hrun (fun _ _ => OpResult.raisesIn_of_state rfl hself) h
  | div a b | mod a b =>
    exact templateW2_runsOrSameButHalt hf hrun
      (fun va vb => OpResult.raisesIn_of_state (unlessZero_state _ va vb s) hself) h
  | not a => exact templateW1_runsOrSameButHalt hf hrun (fun _ => OpResult.raisesIn_of_state rfl hself) h
  | car a | cdr a =>
    exact templateW1_runsOrSameButHalt hf hrun (fun _ => OpResult.raisesIn_of_state (fieldOp_state _ s) hself) h
  | ldr a b => exact templateW2_runsOrSameButHalt hf hrun (fun va vb => loadOp_raisesIn va vb s) h
  | inp a b => exact templateW2_runsOrSameButHalt (op := inOp) hf hrun (fun va vb => inOp_readsAtMostOne va vb s) h
  | cmp a b => exact templateN2_runsOrSameButHalt (op := cmpOp) (fun _ _ => hrun) h
  | out a b => exact templateN2_runsOrSameButHalt (op := outOp) (fun _ _ => hrun) h
  | push a => exact templateN1_runsOrSameButHalt (fun va => pushOp_raisesIn va hrun hm) h
  | jmp a | je a | jne a | jlt a | jgt a => exact .inr (templateJump_sameButHalt h)
  | pop a => exact absurd rfl (hpop a)
  | str a b => exact absurd rfl (hstr a b)
  | cons a b => exact absurd rfl (hcons a b)

end Sys2Proof.Machine

/-! SUPPORT. Proofs about reset and the end of a run (70): the values reset sets (R190), where the image is loaded
(R192), and the one way a run ends well (R204). -/

namespace Sys2Proof.Machine

open Sys2Proof

/-! ## The load and the reset -/

/-- 70 R192: `rom_size` is the length of an image that a word can count. -/
theorem Launch.toNat_romSize_withImage (l : Launch) {image : List Byte} (h : image.length < 2 ^ 32) :
    (l.withImage image).romSize.toNat = image.length :=
  Nat.mod_eq_of_lt h

/-- Settles O46: each value is a field of `resetFrom`. -/
theorem resetValues : Obligations.ResetValues := fun _ =>
  ⟨rfl, rfl, rfl, rfl, rfl, rfl, rfl, rfl, rfl, rfl⟩

/-- Settles O47: the load is one write of consecutive bytes from 0x1000, of which no byte falls outside Memory. -/
theorem launchLoadsImage : Obligations.LaunchLoadsImage := by
  intro l image hfits
  have hsize : l.cfg.memSize.toNat < 2 ^ 32 := l.cfg.memSize.isLt
  refine ⟨l.toNat_romSize_withImage (by omega), fun i hi => ?_,
    fun p hout => Memory.get_putBytes_other l.mem image hout⟩
  have hmem : 0x1000 + i < (State.resetFrom (l.withImage image)).memTop :=
    (Nat.add_lt_add_left hi 0x1000).trans_le hfits
  calc (State.resetFrom (l.withImage image)).byteAt? (0x1000 + i)
      = some ((l.mem.putBytes 0x1000 image).get (0x1000 + i)) := if_pos hmem
    _ = some image[i] := congrArg some (Memory.get_putBytes_mem l.mem 0x1000 image i hi)
    _ = image[i]? := (List.getElem?_eq_getElem hi).symm

/-! ## The end of a run -/

/-- 60 R160, R168: a fault sets another halt, and no other effect of an instruction writes `run`. -/
theorem run_ne_success_keptByEffects : KeptByEffects (·.run ≠ .success) where
  fault _ _ _ _ := nofun
  jump _ _ h := h
  reg _ _ _ _ h := h
  store _ _ _ _ h := h
  flags _ _ _ h := h
  push _ _ h := h
  pop _ _ h := h
  alloc _ _ h := h
  read _ _ h := h
  write _ _ _ h := h

/-- A step that passes the run test does not end the run well. -/
theorem step_run_ne_success {s t : State} (hrun : s.run = .running) (hrom : s.inRom = true)
    (h : step s = .next t) : t.run ≠ .success := by
  have hs : s.run ≠ .success := by rw [hrun]; nofun
  rcases step_cases h with ⟨hhalt, -⟩ | ⟨-, hout, -⟩ | ⟨-, -, op, -, rfl⟩ | ⟨-, -, i, -, hexec⟩
  · exact absurd hrun hhalt
  · cases hrom.symm.trans hout
  · exact run_ne_success_keptByEffects.fault s _ _ hs
  · exact exec_kept run_ne_success_keptByEffects hs hexec

/-- Settles O41: outside the ROM region the step is the clean halt, and inside it no effect gives that halt. -/
theorem successOnlyByRunTest : Obligations.SuccessOnlyByRunTest := by
  intro s t hrun hst
  rw [← State.inRom_eq_false]
  cases hrom : s.inRom with
  | true => exact iff_of_false (step_run_ne_success hrun hrom hst) nofun
  | false =>
    rw [step_of_outsideRom hrun hrom] at hst
    cases hst
    exact iff_of_true s.cleanHalt_run rfl

end Sys2Proof.Machine
